-- ==== Sys2Proof/Word.lean ====
section
/-! DEFINITION. The two kinds of cell the hardware's buffers hold (spec/20_memory.md R40). -/

namespace Sys2Proof

/-- A byte of PB, and a character of MI or MO: an unsigned 8-bit value, 0 to 255 (R7, R23, R24, R25). -/
abbrev Byte := BitVec 8

/-- A cell of BS: one bit, `true` for 1 and `false` for 0 (R26). -/
abbrev Bit := Bool

end Sys2Proof
end

