-- ==== Sys2Proof/Config.lean ====
section
/-! DEFINITION. What one instance of the hardware fixes (spec/00_scope.md R5, R6, R33), and the free
values: what a buffer cell holds that nothing has given a value (spec/10_state.md R27, R34). -/

namespace Sys2Proof

/-- The four address spaces, one per buffer (R40). -/
inductive Space where
  | pb
  | mi
  | mo
  | bs
  deriving DecidableEq, Repr

/-- The parameters of R5 that a model takes as arguments. CHAR_W is fixed at 8 (R7) and HOST_BUS is left open:
the host names registers and cells directly (R32). -/
structure Params where
  /-- DIM_W, the width in bits of WIDTH and HEIGHT. -/
  dimW : Nat
  /-- NPIX_MAX, the most pixels PB can hold. -/
  npixMax : Nat
  /-- MSG_MAX, the most characters MI can hold. -/
  msgMax : Nat
  deriving DecidableEq, Repr

namespace Params

/-- CAP_W, the width in bits of CAPACITY (R6). -/
def capW (p : Params) : Nat := 2 * p.dimW

/-- BS_MAX, the number of bit cells of BS (R6). -/
def bsMax (p : Params) : Nat := max (8 * (p.msgMax + 1)) (3 * p.npixMax)

/-- MO_MAX, the number of character cells of MO (R6). -/
def moMax (p : Params) : Nat := p.bsMax / 8

end Params

/-- The instance `Machine.step` runs: the values R5 suggests. DESIGN CHOICE, safe for the statements that quantify
over `Params` (notes/assumptions/1.md). -/
def Config.params : Params where
  dimW := 16
  npixMax := (2 ^ 16 - 1) ^ 2
  msgMax := 3 * (2 ^ 16 - 1) ^ 2 / 8 - 1

/-- The free value of byte cell `index` of PB, MI or MO that nothing has given a value since the buffer's contents
last became unspecified, `epoch` counting those occasions (R27, R34, R221; spec/93 U4 `any value`). No body: no proof
can learn what it is. -/
opaque Config.freeByte : (space : Space) → (epoch : Nat) → (index : Nat) → Byte

/-- The free value of bit cell `index` of BS, in the same way (R27, R34, R221; spec/93 U4). -/
opaque Config.freeBit : (epoch : Nat) → (index : Nat) → Bit

end Sys2Proof
end

