-- ==== Sys2Proof/Syntax.lean ====
section
/-! DEFINITION. The five commands (spec/30_encoding.md R81, spec/opcode_table.json). -/

namespace Sys2Proof

/-- One constructor per row of the opcode table. No command has an operand field: each takes its operands from fixed
registers and buffers (R81). -/
inductive Instr where
  /-- CAP: capacity of WIDTH x HEIGHT (R123). -/
  | cap
  /-- SER: serialize MI into BS (R103). -/
  | ser
  /-- DES: deserialize BS into MO (R109). -/
  | des
  /-- EMB: embed MI into PB (R133). -/
  | emb
  /-- EXT: extract MO from PB (R153). -/
  | ext
  deriving DecidableEq, Repr

end Sys2Proof
end

