-- ==== Sys2Proof/WellFormed.lean ====
section
/-! DEFINITION. Which instructions, command words and parameter choices are well formed. -/

namespace Sys2Proof

/-- A command has no operand field that could be out of range, so each of the five is well formed (R81, R88). -/
def Instr.wf : Instr → Bool
  | .cap => true
  | .ser => true
  | .des => true
  | .emb => true
  | .ext => true

/-- A legal command word (R82): bits 7:3 are 0 (R87) and `op`, bits 2:0, is one of 1 to 5 (R86). -/
def wordWf (w : Byte) : Bool :=
  w.extractLsb' 3 5 == 0#5 && decide (1 ≤ (w.extractLsb' 0 3).toNat) && decide ((w.extractLsb' 0 3).toNat ≤ 5)

/-- R5's one constraint on the parameters: DIM_W is at least 1. -/
def Params.wf (p : Params) : Bool := decide (1 ≤ p.dimW)

end Sys2Proof
end

