-- ==== Sys2Proof/Decode.lean ====
section
/-! DEFINITION. The command word (spec/30_encoding.md R82, R86, R87): decoder, encoder and the opcode table. -/

namespace Sys2Proof

/-- Why a byte is no command. Neither is a fault of the hardware: the words are outside its defined behaviour
(R86, R87, R198). -/
inductive Reject where
  /-- R86: bits 7:3 are 0 and `op` is 0, 6 or 7. -/
  | reservedOp (word : Byte)
  /-- R87: one of bits 7:3 is set, whatever `op` is. -/
  | reservedBits (word : Byte)
  deriving DecidableEq, Repr

/-- Bits 2:0 of a command word (R82). -/
def opField (w : Byte) : BitVec 3 := w.extractLsb' 0 3

/-- Bits 7:3 of a command word, which must be 0 (R82). -/
def reservedField (w : Byte) : BitVec 5 := w.extractLsb' 3 5

/-- The command that a command word selects (R82), or why it selects none (R86, R87). Every mask is 0xFF: the whole
word is compared. -/
def decode (w : Byte) : Except Reject Instr :=
  if reservedField w ≠ 0#5 then .error (.reservedBits w)
  else
    match (opField w).toNat with
    | 1 => .ok .cap
    | 2 => .ok .ser
    | 3 => .ok .des
    | 4 => .ok .emb
    | 5 => .ok .ext
    | _ => .error (.reservedOp w)

/-- Decoding from bytes: there is one length of command word, 8 bits (R70), and the later bytes are left. `none` is
the empty list, which holds no command word to decode or to reject. -/
def decodeBytes : List Byte → Option (Except Reject (Instr × List Byte))
  | [] => none
  | w :: rest => some ((decode w).map fun i => (i, rest))

/-- The command word of a command (R82's table of legal words). -/
def encode : Instr → Byte
  | .cap => 0x01#8
  | .ser => 0x02#8
  | .des => 0x03#8
  | .emb => 0x04#8
  | .ext => 0x05#8

/-- The mnemonic of a command, which is also how the spec writes one: bare, with no operands (R81, R89). -/
def Instr.mnemonic : Instr → String
  | .cap => "CAP"
  | .ser => "SER"
  | .des => "DES"
  | .emb => "EMB"
  | .ext => "EXT"

/-- The command a mnemonic names (R89). -/
def Instr.ofMnemonic (m : String) : Option Instr :=
  [Instr.cap, .ser, .des, .emb, .ext].find? fun i => i.mnemonic == m

/-- A row of R82's table: `w` selects `instr` when `w &&& mask = pattern`. -/
structure OpcodeRow where
  instr : Instr
  pattern : Byte
  mask : Byte
  deriving DecidableEq, Repr

/-- The rows of R82 and of spec/opcode_table.json. -/
def opcodeTable : List OpcodeRow :=
  [ { instr := .cap, pattern := 0x01#8, mask := 0xFF#8 },
    { instr := .ser, pattern := 0x02#8, mask := 0xFF#8 },
    { instr := .des, pattern := 0x03#8, mask := 0xFF#8 },
    { instr := .emb, pattern := 0x04#8, mask := 0xFF#8 },
    { instr := .ext, pattern := 0x05#8, mask := 0xFF#8 } ]

/-- R82: a word `w` selects a row when `w & mask = match`. -/
def OpcodeRow.selects (r : OpcodeRow) (w : Byte) : Bool := w &&& r.mask == r.pattern

/-- The byte of an instruction whose bits are `w` as the opcode table numbers them: bits 7:0, every bit above
`nbits` being 0. A command word is one byte (R70), so no later byte belongs to it. -/
def tableWordByte (nbits w : Nat) : Byte := BitVec.ofNat 8 (w % 2 ^ nbits)

/-- What the decoder reads from an instruction whose bits are `w`. -/
def decodeTableWord (nbits w : Nat) : Option Instr :=
  match decodeBytes [tableWordByte nbits w] with
  | some (.ok (i, _)) => some i
  | some (.error _) => none
  | none => none

end Sys2Proof
end

