-- ==== Sys2Proof/Machine/State.lean ====
section
/-! DEFINITION. The state of the machine (spec/10_state.md R12 to R35), the events the host puts to it (R32), and the
reasons a step can stop. State is plain data. -/

namespace Sys2Proof.Machine

/-- The nine registers, in the order of their numbers 0 to 8 (R12). -/
inductive Reg where
  | cmd
  | status
  | width
  | height
  | capacity
  | npix
  | milen
  | molen
  | blen
  deriving DecidableEq, Repr

/-- What the host can do between commands: one access to one register or one cell (R32), or a reset (R220). -/
inductive HostEvent where
  /-- Write `v` to a register. A write to CMD issues the command whose word is `v` (R13). -/
  | writeReg (r : Reg) (v : Nat)
  /-- Read a register. -/
  | readReg (r : Reg)
  | writePb (i : Nat) (v : Byte)
  | writeMi (j : Nat) (c : Byte)
  | writeMo (j : Nat) (c : Byte)
  | writeBs (k : Nat) (b : Bit)
  | readPb (i : Nat)
  | readMi (j : Nat)
  | readMo (j : Nat)
  | readBs (k : Nat)
  /-- The reset input (R220). -/
  | reset
  deriving DecidableEq, Repr

/-- A buffer's cells: those that have a value, as (index, value) pairs with strictly rising indices
(`Memory.wf`), and the epoch, which counts how often the buffer's cells became unspecified. A cell that is not listed
holds the free value of its index in that epoch (R27, R34, R221). -/
structure Memory (α : Type) where
  epoch : Nat
  cells : List (Nat × α)
  deriving DecidableEq, Repr

/-- The two outcomes of a command (spec/60_exceptions.md R190). -/
inductive CommandOutcome where
  | ok
  | capacityExceeded
  deriving DecidableEq, Repr

/-- Everything the hardware holds (R35), and the model's own two fields, `inbox` and `reply`. CMD is not stored:
it reads as 0 (R13). The registers that count are naturals, whose bounds are an invariant (`State.Legal`): R8 makes all
arithmetic exact, and the widths are parameters (R5, R6). -/
structure State where
  /-- STATUS, register 1 (R14): bit 0 is CAPX, bits 7:1 read as 0. -/
  status : Byte
  /-- WIDTH, register 2, DIM_W bits (R15). -/
  width : Nat
  /-- HEIGHT, register 3, DIM_W bits (R16). -/
  height : Nat
  /-- CAPACITY, register 4, CAP_W bits (R17). -/
  capacity : Nat
  /-- NPIX, register 5, 0 to NPIX_MAX (R18). -/
  npix : Nat
  /-- MILEN, register 6, 0 to MSG_MAX (R19). -/
  milen : Nat
  /-- MOLEN, register 7, 0 to MO_MAX (R20). -/
  molen : Nat
  /-- BLEN, register 8, 0 to BS_MAX (R21). -/
  blen : Nat
  /-- PB, the pixel buffer (R23). -/
  pb : Memory Byte
  /-- MI, the message-in buffer (R24). -/
  mi : Memory Byte
  /-- MO, the message-out buffer (R25). -/
  mo : Memory Byte
  /-- BS, the bit-sequence buffer (R26). -/
  bs : Memory Bit
  /-- The model's own: what the host will do next, the first entry first. The spec makes the command an input of the
  step (R11). DESIGN CHOICE (notes/assumptions/2.md). -/
  inbox : List HostEvent
  /-- The model's own: what the last host read answered. DESIGN CHOICE (notes/assumptions/3.md). -/
  reply : Option Nat
  deriving DecidableEq, Repr

/-- Why the machine stops with a fault: there is no such reason. The spec has no bounds fault, no alignment fault and
no illegal-command exception (spec/60 R192), and its one exception, CapacityExceeded, does not stop the hardware (R195):
it is a next state. So no step faults, by this type alone. -/
inductive Fault where
  deriving DecidableEq, Repr

/-- Why a step is given no meaning. None of these is an outcome of the hardware (R190, R198): the state has no
successor and stays as it is. All are safe: nothing is proved of what the hardware would do. -/
inductive Refusal where
  /-- An instruction that has no meaning in the model yet. No arm of `exec` answers it. -/
  | notModelled (mnemonic : String)
  /-- A host write to CMD of a word whose bits 7:3 are 0 and whose `op` is 0, 6 or 7 (R86). -/
  | reservedOp (word : Byte)
  /-- A host write to CMD of a word with one of bits 7:3 set (R87). -/
  | reservedBits (word : Byte)
  /-- A host write to STATUS, CAPACITY or MOLEN (R22). -/
  | readOnlyRegister (r : Reg)
  /-- A host write to a cell of MO (R22). -/
  | readOnlyBuffer (index : Nat)
  /-- A host access to a cell that the buffer does not have: an index at or beyond the buffer's number of cells
  (R40). No command makes one, and it is no fault (R53, R192). Raised by the host port (notes/assumptions/7.md). -/
  | noSuchCell (space : Space) (index : Nat)
  /-- A host write of a value that the register cannot hold: above NPIX_MAX, MSG_MAX or BS_MAX (R22), or of more bits
  than the register has (R12). -/
  | valueOutOfRange (r : Reg) (v : Nat)
  deriving DecidableEq, Repr

/-- The state after reset (R34): every register 0, every buffer empty, every cell unspecified. -/
def State.reset : State where
  status := 0#8
  width := 0
  height := 0
  capacity := 0
  npix := 0
  milen := 0
  molen := 0
  blen := 0
  pb := { epoch := 0, cells := [] }
  mi := { epoch := 0, cells := [] }
  mo := { epoch := 0, cells := [] }
  bs := { epoch := 0, cells := [] }
  inbox := []
  reply := none

end Sys2Proof.Machine
end

