-- ==== Sys2Proof/Machine/Flags.lean ====
section
/-! DEFINITION. STATUS, the only flag register (spec/10_state.md R14). -/

namespace Sys2Proof.Machine

/-- What a command writes to STATUS at its end: CAPX is 1 after CapacityExceeded and 0 after ok; bits 7:1 are 0
(R14, R190). -/
def statusWord : CommandOutcome → Byte
  | .ok => 0x00#8
  | .capacityExceeded => 0x01#8

/-- STATUS.CAPX, bit 0 (R14). -/
def State.capx (s : State) : Bit := s.status.getLsbD 0

/-- How the last command ended, as STATUS reports it (R14, R190). -/
def State.lastOutcome (s : State) : CommandOutcome := if s.capx then .capacityExceeded else .ok

end Sys2Proof.Machine
end

