-- ==== Sys2Proof/Machine/Operands.lean ====
section
/-! DEFINITION. Operand assembly: bits and characters (spec/30_encoding.md R74 to R77), the channel selector and the
traversal (spec/20_memory.md R48, R49). -/

namespace Sys2Proof.Machine

/-- `bit(v, b)`, bit `b` of `v`, bit 0 the least significant (R8). -/
def bitOf (v : Byte) (b : Nat) : Bit := v.getLsbD b

/-- The 8 bits of a character, the most significant first (R74). -/
def charBits (c : Byte) : List Bit :=
  [bitOf c 7, bitOf c 6, bitOf c 5, bitOf c 4, bitOf c 3, bitOf c 2, bitOf c 1, bitOf c 0]

/-- The 8 zero bits that end a serialized message (R75). -/
def terminator : List Bit := List.replicate 8 false

/-- The unsigned value of a group of bits, its first bit the most significant (R76). -/
def groupValue (g : List Bit) : Nat := g.foldl (fun v b => 2 * v + b.toNat) 0

/-- The character a group of 8 bits stands for (R76). -/
def groupChar (g : List Bit) : Byte := BitVec.ofNat 8 (groupValue g)

/-- Group `j` of a bit sequence: bits 8j to 8j+7, groups being aligned to its start (spec/20 R47). -/
def group (B : List Bit) (j : Nat) : List Bit := (B.drop (8 * j)).take 8

/-- The channel selector (R48): a byte of PB is an alpha byte when its index modulo 4 is 3, and usable otherwise. -/
def isAlpha (i : Nat) : Bool := i % 4 == 3

/-- The index of the k-th usable byte of PB (R49, R77). -/
def usable (k : Nat) : Nat := 4 * (k / 3) + k % 3

/-- Bit 0 of a carrier byte, `byte & 1` (R72). -/
def lsb (v : Byte) : Bit := bitOf (v &&& 0x01#8) 0

/-- A bit as a byte, 0 or 1. -/
def bitByte (b : Bit) : Byte := if b then 0x01#8 else 0x00#8

/-- `(byte & 0xFE) | bit`: bit 0 takes the payload, bits 7:1 stay (R72, spec/42 R132). -/
def setLsb (v : Byte) (b : Bit) : Byte := (v &&& 0xFE#8) ||| bitByte b

end Sys2Proof.Machine
end

