-- ==== Sys2Proof/Machine/Ops.lean ====
section
/-! DEFINITION. The named operations over buffers and registers, and the two ways a command ends. -/

namespace Sys2Proof.Machine

/-! ## A buffer's cells -/

/-- The listed value of cell `i`. -/
def Memory.lookup {α : Type} : List (Nat × α) → Nat → Option α
  | [], _ => none
  | (a, v) :: rest, i => if i = a then some v else Memory.lookup rest i

/-- The cells with `v` at index `i`, indices kept strictly rising. -/
def Memory.insert {α : Type} : List (Nat × α) → Nat → α → List (Nat × α)
  | [], i, v => [(i, v)]
  | (a, u) :: rest, i, v =>
    if i < a then (i, v) :: (a, u) :: rest
    else if i = a then (i, v) :: rest
    else (a, u) :: Memory.insert rest i v

/-- The elements of a sequence as cells `k`, `k + 1`, ... -/
def Memory.cellsFrom {α : Type} : Nat → List α → List (Nat × α)
  | _, [] => []
  | k, x :: xs => (k, x) :: Memory.cellsFrom (k + 1) xs

/-- `MemRead(S:i, 1)` (R8): the cell's value, or its free value where nothing has given it one (R27, R34). -/
def Memory.read {α : Type} (free : Nat → Nat → α) (m : Memory α) (i : Nat) : α :=
  (Memory.lookup m.cells i).getD (free m.epoch i)

/-- `MemWrite(S:i, 1, v)` (R8). -/
def Memory.write {α : Type} (m : Memory α) (i : Nat) (v : α) : Memory α :=
  { m with cells := Memory.insert m.cells i v }

/-- What a command that writes a whole buffer leaves in it: `xs` from index 0 on, and every cell at or beyond the new
length unspecified, its value drawn afresh (R27). -/
def Memory.refill {α : Type} (m : Memory α) (xs : List α) : Memory α :=
  { epoch := m.epoch + 1, cells := Memory.cellsFrom 0 xs }

/-- A buffer after a reset: every cell unspecified, drawn afresh (R34, R221). -/
def Memory.forget {α : Type} (m : Memory α) : Memory α :=
  { epoch := m.epoch + 1, cells := [] }

/-- The first `n` cells, as a sequence: the buffer's content when `n` is its length (R23 to R26). -/
def Memory.content {α : Type} (free : Nat → Nat → α) (m : Memory α) (n : Nat) : List α :=
  (List.range n).map (m.read free)

/-- The canonical form: indices strictly rise. An unlisted cell reads as a free value, which no listed value is known
to equal, so no further clause is needed for equal buffers to be equal data (notes/assumptions/5.md). -/
abbrev Memory.wf {α : Type} (m : Memory α) : Prop := m.cells.Pairwise fun c d => c.1 < d.1

/-- Every listed cell lies below index `n`: the buffer has `n` cells. -/
abbrev Memory.within {α : Type} (m : Memory α) (n : Nat) : Prop := ∀ c ∈ m.cells, c.1 < n

/-! ## Cells of the four buffers -/

def State.readPb (s : State) (i : Nat) : Byte := s.pb.read (Config.freeByte .pb) i
def State.readMi (s : State) (j : Nat) : Byte := s.mi.read (Config.freeByte .mi) j
def State.readMo (s : State) (j : Nat) : Byte := s.mo.read (Config.freeByte .mo) j
def State.readBs (s : State) (k : Nat) : Bit := s.bs.read Config.freeBit k

/-- PB[0 .. 4 x NPIX), the pixel buffer's content (R18, R23). -/
def State.pixels (s : State) : List Byte := s.pb.content (Config.freeByte .pb) (4 * s.npix)

/-- MI[0 .. MILEN), the message to serialize or embed (R19, R24). -/
def State.message (s : State) : List Byte := s.mi.content (Config.freeByte .mi) s.milen

/-- MO[0 .. MOLEN), the recovered message (R20, R25). -/
def State.recovered (s : State) : List Byte := s.mo.content (Config.freeByte .mo) s.molen

/-- BS[0 .. BLEN), the bit sequence (R21, R26). -/
def State.bitSeq (s : State) : List Bit := s.bs.content Config.freeBit s.blen

/-! ## What commands write -/

/-- CAPACITY <- v (R123). -/
def State.storeCapacity (s : State) (v : Nat) : State := { s with capacity := v }

/-- BS and BLEN <- a bit sequence, as SER, EMB and EXT leave it (R103, R133, R153). -/
def State.storeBits (s : State) (B : List Bit) : State :=
  { s with bs := s.bs.refill B, blen := B.length }

/-- MO and MOLEN <- a recovered message, as DES and EXT leave it (R109, R153). -/
def State.storeMessage (s : State) (M : List Byte) : State :=
  { s with mo := s.mo.refill M, molen := M.length }

/-- PB[i] <- v (R133). -/
def State.storePixel (s : State) (i : Nat) (v : Byte) : State := { s with pb := s.pb.write i v }

/-- STATUS <- w, at the end of a command (R14). -/
def State.setStatus (s : State) (w : Byte) : State := { s with status := w }

/-! ## How a command ends -/

/-- The end of a command: STATUS reports the outcome (R14, R190), and the machine is ready for the next (R195). -/
def complete (o : CommandOutcome) (s : State) : Host.Outcome State Fault Refusal :=
  .next (s.setStatus (statusWord o))

/-- `raise CapacityExceeded` (R195): the command ends at once with CAPX = 1; what it wrote before stands, nothing after
is executed. There is no handler, vector, saved state or mode, and nothing to return from (R196): the next command
starts from this state. -/
def raiseCapacityExceeded (s : State) : Host.Outcome State Fault Refusal :=
  complete .capacityExceeded s

/-! ## What the host writes -/

/-- MI[j] <- c (R24). -/
def State.storeMi (s : State) (j : Nat) (c : Byte) : State := { s with mi := s.mi.write j c }

/-- BS[k] <- b (R26). -/
def State.storeBs (s : State) (k : Nat) (b : Bit) : State := { s with bs := s.bs.write k b }

/-- The state with a host read answered. A read has no other effect (spec/20 R51). -/
def State.answer (s : State) (v : Nat) : State := { s with reply := some v }

/-- The state with `evs` as what the host does next. -/
def State.setInbox (s : State) (evs : List HostEvent) : State := { s with inbox := evs }

/-! ## The registers as the host numbers and reads them -/

/-- The register's number (R12). -/
def Reg.number : Reg → Nat
  | .cmd => 0
  | .status => 1
  | .width => 2
  | .height => 3
  | .capacity => 4
  | .npix => 5
  | .milen => 6
  | .molen => 7
  | .blen => 8

/-- What a host read of a register answers. CMD keeps nothing and reads as 0 at all times (R13). -/
def State.readReg (s : State) : Reg → Nat
  | .cmd => 0
  | .status => s.status.toNat
  | .width => s.width
  | .height => s.height
  | .capacity => s.capacity
  | .npix => s.npix
  | .milen => s.milen
  | .molen => s.molen
  | .blen => s.blen

end Sys2Proof.Machine
end

