-- ==== Sys2Proof/Machine/Capacity.lean ====
section
/-! DEFINITION. The capacity calculator: CAP (spec/41_capacity.md). -/

namespace Sys2Proof.Machine

/-- `capacity(w, h)` (R120, R121): exact on naturals; the subtraction stops at 0, which is `max(0, ...)`. -/
def capacity (w h : Nat) : Nat :=
  let usableBits := w * h * 3
  let usableBytes := usableBits / 8
  usableBytes - 1

/-- CAP (R123). -/
def execCap (s : State) : Host.Outcome State Fault Refusal :=
  complete .ok (s.storeCapacity (capacity s.width s.height))

end Sys2Proof.Machine
end

