-- ==== Sys2Proof/Machine/Codec.lean ====
section
/-! DEFINITION. The bit codec: SER and DES (spec/40_bit_codec.md). -/

namespace Sys2Proof.Machine

/-- `serialize(M)` (R100): 8 bits a character, the most significant first, then the terminator. -/
def serialize (M : List Byte) : List Bit := M.flatMap charBits ++ terminator

/-- `deserialize(B)` (R104): a character for each complete group up to the first that is all zero; fewer than 8 bits
that remain are discarded. The source's test for a nonzero value after the stop can never fail and is dropped (R107). -/
def deserialize : List Bit → List Byte
  | b₀ :: b₁ :: b₂ :: b₃ :: b₄ :: b₅ :: b₆ :: b₇ :: rest =>
    if groupValue [b₀, b₁, b₂, b₃, b₄, b₅, b₆, b₇] = 0 then []
    else groupChar [b₀, b₁, b₂, b₃, b₄, b₅, b₆, b₇] :: deserialize rest
  | _ => []

/-- Phase SCANNING of R105: the index of the first complete group that is all zero, or the number of complete groups
when there is none. -/
def terminatorIndex (B : List Bit) : Nat :=
  ((List.range (B.length / 8)).find? fun j => group B j == terminator).getD (B.length / 8)

/-- `deserialize` in the two phases of R105: scan for the terminator, then read the groups before it. -/
def deserializeTwoPhase (B : List Bit) : List Byte :=
  (List.range (terminatorIndex B)).map fun j => groupChar (group B j)

/-- SER (R103). -/
def execSer (s : State) : Host.Outcome State Fault Refusal :=
  complete .ok (s.storeBits (serialize s.message))

/-- DES (R109). -/
def execDes (s : State) : Host.Outcome State Fault Refusal :=
  complete .ok (s.storeMessage (deserialize s.bitSeq))

end Sys2Proof.Machine
end

