-- ==== Sys2Proof/Machine/Embedder.lean ====
section
/-! DEFINITION. The embedder: EMB (spec/42_embedder.md). -/

namespace Sys2Proof.Machine

/-- Step 4 of R133, from bit index `k` on: `PB[usable(k)] <- (PB[usable(k)] & 0xFE) | bit`, bit by bit in ascending
order (R50, R56). -/
def State.embedBits : List Bit → Nat → State → State
  | [], _, s => s
  | b :: B, k, s => State.embedBits B (k + 1) (s.storePixel (usable k) (setLsb (s.readPb (usable k)) b))

/-- EMB (R133): serialize into BS; check `L > 3 x NPIX` before any byte of PB is touched (R131, R135); then embed. -/
def execEmb (s : State) : Host.Outcome State Fault Refusal :=
  let B := serialize s.message
  let s₁ := s.storeBits B
  if B.length > 3 * s.npix then raiseCapacityExceeded s₁
  else complete .ok (s₁.embedBits B 0)

/-- The source's walk (R130 step 4, R50): byte by byte from index `i`, skip the alpha bytes, give each other byte the
next bit, and leave the rest alone once the bits are used up. -/
def embedWalk : Nat → List Bit → List Byte → List Byte
  | _, [], P => P
  | _, _ :: _, [] => []
  | i, b :: B, v :: P =>
    if isAlpha i then v :: embedWalk (i + 1) (b :: B) P
    else setLsb v b :: embedWalk (i + 1) B P

/-- `embed(P, M)` on sequences (R130): `none` is the outcome CapacityExceeded. -/
def embed (P : List Byte) (M : List Byte) : Option (List Byte) :=
  if (serialize M).length > P.length / 4 * 3 then none
  else some (embedWalk 0 (serialize M) P)

end Sys2Proof.Machine
end

