-- ==== Sys2Proof/Machine/Extractor.lean ====
section
/-! DEFINITION. The extractor: EXT (spec/43_extractor.md). -/

namespace Sys2Proof.Machine

/-- Steps 1 and 2 of R153: bit 0 of PB[usable(k)] for k = 0 .. 3 x NPIX - 1, the whole buffer (R152). -/
def State.readOut (s : State) : List Bit :=
  (List.range (3 * s.npix)).map fun k => lsb (s.readPb (usable k))

/-- EXT (R153): the read-out into BS, then its deserialization into MO. -/
def execExt (s : State) : Host.Outcome State Fault Refusal :=
  complete .ok ((s.storeBits s.readOut).storeMessage (deserialize s.readOut))

/-- The source's walk (R150): byte by byte from index `i`, skip the alpha bytes, take bit 0 of each other byte. -/
def lsbsWalk : Nat → List Byte → List Bit
  | _, [] => []
  | i, v :: P => if isAlpha i then lsbsWalk (i + 1) P else lsb v :: lsbsWalk (i + 1) P

/-- `lsbs(P)` on sequences (R150). -/
def lsbs (P : List Byte) : List Bit := lsbsWalk 0 P

/-- `extract(P)` on sequences (R151). -/
def extract (P : List Byte) : List Byte := deserialize (lsbs P)

end Sys2Proof.Machine
end

