-- ==== Sys2Proof/Machine/Dispatch.lean ====
section
/-! DEFINITION. One arm per command: what it does to the state (spec/30_encoding.md R81). -/

namespace Sys2Proof.Machine

/-- A command as one atomic transition of the whole state (spec/20_memory.md R55). -/
def exec (i : Instr) (s : State) : Host.Outcome State Fault Refusal :=
  match i with
  | .cap => Sys2Proof.Machine.execCap s
  | .ser => Sys2Proof.Machine.execSer s
  | .des => Sys2Proof.Machine.execDes s
  | .emb => Sys2Proof.Machine.execEmb s
  | .ext => Sys2Proof.Machine.execExt s

end Sys2Proof.Machine
end

