-- ==== Sys2Proof/Machine/HostPort.lean ====
section
/-! DEFINITION. What the host can do between commands: one register or one cell at a time, and reset
(spec/10_state.md R12, R13, R22, R32; spec/70_reset_and_hazards.md R220). -/

namespace Sys2Proof.Machine

/-- The number of cells of a buffer (R40). -/
def cellCount (p : Params) : Space → Nat
  | .pb => 4 * p.npixMax
  | .mi => p.msgMax
  | .mo => p.moMax
  | .bs => p.bsMax

/-- A host write of a command word to CMD (R13): the command is performed; a word that is no command is refused by
name, with no flag set and nothing changed (R86, R87, R198). -/
def issue (w : Byte) (s : State) : Host.Outcome State Fault Refusal :=
  match decode w with
  | .ok i => exec i s
  | .error (.reservedBits v) => .refused (.reservedBits v)
  | .error (.reservedOp v) => .refused (.reservedOp v)

/-- The least value a host write to the register cannot have: 2 to the register's width (R12 to R16), or one above the
legal range of a length (R18, R19, R21, R22); 0 for a read-only register. -/
def Reg.bound (p : Params) : Reg → Nat
  | .cmd => 2 ^ 8
  | .status => 0
  | .width => 2 ^ p.dimW
  | .height => 2 ^ p.dimW
  | .capacity => 0
  | .npix => p.npixMax + 1
  | .milen => p.msgMax + 1
  | .molen => 0
  | .blen => p.bsMax + 1

/-- The registers the host may not write (R12). -/
def Reg.readOnly : Reg → Bool
  | .status => true
  | .capacity => true
  | .molen => true
  | .cmd => false
  | .width => false
  | .height => false
  | .npix => false
  | .milen => false
  | .blen => false

/-- The state with a host-writable register set. No other register or cell changes (R17, R27). -/
def State.setReg (s : State) (r : Reg) (v : Nat) : State :=
  match r with
  | .width => { s with width := v }
  | .height => { s with height := v }
  | .npix => { s with npix := v }
  | .milen => { s with milen := v }
  | .blen => { s with blen := v }
  | .cmd => s
  | .status => s
  | .capacity => s
  | .molen => s

/-- A host write to a register (R12, R13, R22). -/
def hostWriteReg (p : Params) (r : Reg) (v : Nat) (s : State) : Host.Outcome State Fault Refusal :=
  if r.readOnly then .refused (.readOnlyRegister r)
  else if v < r.bound p then
    (if r = .cmd then issue (BitVec.ofNat 8 v) s else .next (s.setReg r v))
  else .refused (.valueOutOfRange r v)

/-- A host access to cell `i` of a buffer that has it; an access to a cell it does not have is refused, as other host
accesses outside the contract are, and is no fault (spec/20 R53, spec/60 R192; notes/assumptions/7.md). -/
def withCell (p : Params) (sp : Space) (i : Nat) (t : State) : Host.Outcome State Fault Refusal :=
  if i < cellCount p sp then .next t else .refused (.noSuchCell sp i)

/-- The state after a reset (R34, R220, R221): every register 0 and every cell of every buffer unspecified, drawn
afresh. What the host does after it is still to come. -/
def State.afterReset (s : State) : State :=
  { State.reset with
    pb := s.pb.forget
    mi := s.mi.forget
    mo := s.mo.forget
    bs := s.bs.forget
    inbox := s.inbox }

/-- One event of the host (R32). -/
def serve (p : Params) (e : HostEvent) (s : State) : Host.Outcome State Fault Refusal :=
  match e with
  | .writeReg r v => hostWriteReg p r v s
  | .readReg r => .next (s.answer (s.readReg r))
  | .writePb i v => withCell p .pb i (s.storePixel i v)
  | .writeMi j c => withCell p .mi j (s.storeMi j c)
  | .writeMo j _ => .refused (.readOnlyBuffer j)
  | .writeBs k b => withCell p .bs k (s.storeBs k b)
  | .readPb i => withCell p .pb i (s.answer (s.readPb i).toNat)
  | .readMi j => withCell p .mi j (s.answer (s.readMi j).toNat)
  | .readMo j => withCell p .mo j (s.answer (s.readMo j).toNat)
  | .readBs k => withCell p .bs k (s.answer (s.readBs k).toNat)
  | .reset => .next s.afterReset

/-- One step: the next event of the host, taken out of the inbox, is served; with nothing to do the hardware is idle
and keeps all of its state (spec/60 R204). -/
def advance (p : Params) (s : State) : Host.Outcome State Fault Refusal :=
  match s.inbox with
  | [] => .next s
  | e :: rest => serve p e (s.setInbox rest)

end Sys2Proof.Machine
end

