-- ==== Sys2Proof/Machine/Step.lean ====
section
/-! DEFINITION. The step of the machine. The spec has no program counter: a command is an input of the step
(spec/10_state.md R11), which the model takes from the host's events in `State.inbox`. -/

namespace Sys2Proof.Machine

/-- One step of the instance with parameters `p`. -/
def stepFor (p : Params) (s : State) : Host.Outcome State Fault Refusal := advance p s

/-- One step of the instance `Config.params`. -/
def step (s : State) : Host.Outcome State Fault Refusal := stepFor Config.params s

/-- The state in which the host's very next event is the write to CMD of the word whose bits are `w`. -/
def State.withFetchWord (s : State) (nbits w : Nat) : State :=
  s.setInbox (.writeReg .cmd (tableWordByte nbits w).toNat :: s.inbox)

end Sys2Proof.Machine
end

