-- ==== Sys2Proof/Machine/Sequences.lean ====
section
/-! DEFINITION. The two named host sequences, ENCODE and DECODE (spec/30_encoding.md R90). They are the host's, made of
its events and of what it reads; no command of the hardware depends on them. -/

namespace Sys2Proof.Machine

/-- The events of a list, one step each, stopping at the first fault or refusal. -/
def serveAll (p : Params) : List HostEvent → State → Host.Outcome State Fault Refusal
  | [], s => .next s
  | e :: rest, s =>
    match serve p e s with
    | .next t => serveAll p rest t
    | .fault r => .fault r
    | .refused r => .refused r

/-- `load BUF = [elements]` (R89): one cell an event, from index `k` on. -/
def loadFrom {α : Type} (write : Nat → α → HostEvent) : Nat → List α → List HostEvent
  | _, [] => []
  | k, x :: xs => write k x :: loadFrom write (k + 1) xs

/-- ENCODE up to and with CAP (R90). -/
def encodeSetup (w h : Nat) (P M : List Byte) : List HostEvent :=
  [.writeReg .width w, .writeReg .height h, .writeReg .npix (w * h)] ++ loadFrom .writePb 0 P
    ++ [.writeReg .milen M.length] ++ loadFrom .writeMi 0 M
    ++ [.writeReg .cmd (encode .cap).toNat]

/-- What ENCODE reports to the host. -/
inductive EncodeReport where
  /-- MILEN > CAPACITY: the host stops on its own side and issues no EMB. -/
  | oversized
  /-- EMB ended with CAPX = 1. -/
  | capacityExceeded
  /-- EMB ended with CAPX = 0, and this is the pixel buffer read back. -/
  | embedded (P : List Byte)
  deriving DecidableEq, Repr

/-- `ENCODE w, h, buffer, message` (R90): what it reports and the state it leaves. -/
def encodeSequence (p : Params) (w h : Nat) (P M : List Byte) (s : State) :
    Host.Outcome (EncodeReport × State) Fault Refusal :=
  match serveAll p (encodeSetup w h P M) s with
  | .fault r => .fault r
  | .refused r => .refused r
  | .next t =>
    if t.milen > t.capacity then .next (.oversized, t)
    else
      match serve p (.writeReg .cmd (encode .emb).toNat) t with
      | .fault r => .fault r
      | .refused r => .refused r
      | .next u => if u.capx then .next (.capacityExceeded, u) else .next (.embedded u.pixels, u)

/-- `DECODE buffer` of `n` pixels (R90): the message it reads back and the state it leaves. -/
def decodeSequence (p : Params) (n : Nat) (P : List Byte) (s : State) :
    Host.Outcome (List Byte × State) Fault Refusal :=
  match serveAll p (.writeReg .npix n :: loadFrom .writePb 0 P ++ [.writeReg .cmd (encode .ext).toNat]) s with
  | .fault r => .fault r
  | .refused r => .refused r
  | .next t => .next (t.recovered, t)

end Sys2Proof.Machine
end

