-- ==== Sys2Proof/Safety.lean ====
section
/-! DEFINITION. The states a run can reach and what counts as a safe run, in the terms the claims use. -/

namespace Sys2Proof.Machine

/-! ## What a step leaves unchanged -/

/-- Every register but those in `written` reads as before. -/
def State.keepsRegsBut (s t : State) (written : List Reg) : Prop := ∀ r, r ∉ written → t.readReg r = s.readReg r

/-- Every cell of PB reads as before, those at or beyond 4 x NPIX among them. -/
def State.keepsPb (s t : State) : Prop := ∀ i, t.readPb i = s.readPb i

/-- Every cell of MI reads as before. -/
def State.keepsMi (s t : State) : Prop := ∀ j, t.readMi j = s.readMi j

/-- Every cell of MO reads as before. -/
def State.keepsMo (s t : State) : Prop := ∀ j, t.readMo j = s.readMo j

/-- Every cell of BS reads as before. -/
def State.keepsBs (s t : State) : Prop := ∀ k, t.readBs k = s.readBs k

/-- What the model adds to the hardware's state, the host's side of it, is as before. -/
def State.keepsHost (s t : State) : Prop := t.inbox = s.inbox ∧ t.reply = s.reply

/-! ## Which states are reachable, which events are allowed -/

/-- The bounds and forms that hold in every reachable state (R12, R14, R22, R25): what the step keeps. -/
structure State.Legal (p : Params) (s : State) : Prop where
  /-- STATUS is 0 or 1: bits 7:1 read as 0 (R14). -/
  status : s.status = 0x00#8 ∨ s.status = 0x01#8
  width : s.width < 2 ^ p.dimW
  height : s.height < 2 ^ p.dimW
  capacity : s.capacity < 2 ^ p.capW
  npix : s.npix ≤ p.npixMax
  milen : s.milen ≤ p.msgMax
  molen : s.molen ≤ p.moMax
  blen : s.blen ≤ p.bsMax
  /-- Every buffer is in canonical form and lists only cells it has (R40). -/
  pb : s.pb.wf ∧ s.pb.within (cellCount p .pb)
  mi : s.mi.wf ∧ s.mi.within (cellCount p .mi)
  mo : s.mo.wf ∧ s.mo.within (cellCount p .mo)
  bs : s.bs.wf ∧ s.bs.within (cellCount p .bs)
  /-- No character of the recovered message is 0 (R25, R177). -/
  recovered : ∀ j < s.molen, s.readMo j ≠ 0x00#8

/-- An event the host contract allows (R12, R22, R23 to R26, R32, R40, R86, R87, R220): a write of a legal command word
or of a value in range to a writable register, a read of any register, a write to a cell that PB, MI or BS has, a read of
a cell that any of the four buffers has, or a reset. That the others stop the step is R22's, R86's and R87's, and for
absent cells and values wider than a register the model's (notes/assumptions/7.md, 8.md). -/
def HostEvent.allowed (p : Params) : HostEvent → Bool
  | .writeReg r v => !r.readOnly && decide (v < r.bound p) && (r != .cmd || wordWf (BitVec.ofNat 8 v))
  | .readReg _ => true
  | .writePb i _ => decide (i < cellCount p .pb)
  | .writeMi j _ => decide (j < cellCount p .mi)
  | .writeMo _ _ => false
  | .writeBs k _ => decide (k < cellCount p .bs)
  | .readPb i => decide (i < cellCount p .pb)
  | .readMi j => decide (j < cellCount p .mi)
  | .readMo j => decide (j < cellCount p .mo)
  | .readBs k => decide (k < cellCount p .bs)
  | .reset => true

/-! ## CapacityExceeded, and safe runs -/

/-- EMB does not fit: the condition of CapacityExceeded (R131, R191). -/
def State.overfull (s : State) : Bool := decide (8 * (s.milen + 1) > 3 * s.npix)

/-- The command the next step performs, if it performs one. -/
def State.nextCommand (s : State) : Option Instr :=
  match s.inbox with
  | .writeReg .cmd v :: _ =>
    if v < 2 ^ 8 then (match decode (BitVec.ofNat 8 v) with | .ok i => some i | .error _ => none) else none
  | _ => none

/-- The next step raises CapacityExceeded (R191). -/
def State.raisesNext (s : State) : Bool := s.nextCommand == some .emb && s.overfull

/-- The record of CapacityExceeded that nothing clears, kept outside STATUS (R14, R195): whether one of the first `n`
steps raises it. -/
def raisedWithin (p : Params) : Nat → State → Bool
  | 0, _ => false
  | n + 1, s =>
    s.raisesNext ||
      match stepFor p s with
      | .next t => raisedWithin p n t
      | .fault _ => false
      | .refused _ => false

/-- `n` steps of the instance with parameters `p`, stopping at the first fault or refusal. -/
def runFor (p : Params) : Nat → State → Host.Outcome State Fault Refusal
  | 0, s => .next s
  | n + 1, s =>
    match stepFor p s with
    | .next t => runFor p n t
    | .fault r => .fault r
    | .refused r => .refused r

/-- A safe run of `n` steps: it stops nowhere and raises no CapacityExceeded. Whether CapacityExceeded counts as gone
wrong is the claim's business (R195); here it does. -/
def SafeFor (p : Params) (n : Nat) (s : State) : Prop :=
  (∃ t, runFor p n s = .next t) ∧ raisedWithin p n s = false

end Sys2Proof.Machine
end

