-- ==== Sys2Proof/Certificates/Slice0/Obligations.lean ====
section
/-! DEFINITION. What the model is claimed to do: statements made from the rules of spec/, without proofs. -/

open Sys2Proof Sys2Proof.Machine

/-! ## The command word -/

/-- R82: the legal command words, complete; a word selects a row of the table when `w & mask = match`. -/
def Obligations.CommandWordsAreTheTable : Prop :=
  decode 0x01#8 = .ok .cap ∧ decode 0x02#8 = .ok .ser ∧ decode 0x03#8 = .ok .des ∧
  decode 0x04#8 = .ok .emb ∧ decode 0x05#8 = .ok .ext ∧
  (∀ (w : Byte) (i : Instr), decode w = .ok i ↔
    ∃ r ∈ opcodeTable, r.instr = i ∧ r.mask = 0xFF#8 ∧ w &&& r.mask = r.pattern) ∧
  ∀ (w : Byte) (i : Instr), decode w = .ok i → reservedField w = 0#5

/-- R86 and R87 as the model renders them: a reserved word is refused, so the step has no next state. R87 treats both
kinds alike: which of the two names a word gets is the model's choice (notes/assumptions/9.md), as is the list the event
stands in (notes/assumptions/2.md). -/
def Obligations.ReservedWordsAreRefused : Prop :=
  (∀ w : Byte, reservedField w = 0#5 → (opField w = 0#3 ∨ opField w = 6#3 ∨ opField w = 7#3) →
    ∀ (p : Params) (s : State) (rest : List HostEvent), s.inbox = .writeReg .cmd w.toNat :: rest →
      stepFor p s = .refused (.reservedOp w)) ∧
  (∀ w : Byte, reservedField w ≠ 0#5 →
    ∀ (p : Params) (s : State) (rest : List HostEvent), s.inbox = .writeReg .cmd w.toNat :: rest →
      stepFor p s = .refused (.reservedBits w)) ∧
  (((List.range 256).filter fun n => (decode (BitVec.ofNat 8 n)).toOption.isSome).length = 5 ∧
   ((List.range 256).filter fun n => (decode (BitVec.ofNat 8 n)).toOption.isNone).length = 251)

/-- Decoding and encoding agree in both directions. -/
def Obligations.DecodeAndEncodeAgree : Prop :=
  (∀ i : Instr, i.wf = true → decode (encode i) = .ok i ∧ decodeTableWord 8 (encode i).toNat = some i) ∧
  ∀ (w : Byte) (i : Instr), decode w = .ok i → encode i = w

/-- R13 as the model renders it: a host write of a legal command word performs that command as one step; CMD keeps
nothing and reads as 0. That the event is taken out of the host's list (`setInbox rest`) and that a read answers into
`reply` are the model's choices (notes/assumptions/2.md, 3.md). -/
def Obligations.StepPerformsTheCommandWritten : Prop :=
  (∀ (p : Params) (s : State) (w : Byte) (i : Instr) (rest : List HostEvent),
    s.inbox = .writeReg .cmd w.toNat :: rest → decode w = .ok i → stepFor p s = exec i (s.setInbox rest)) ∧
  (∀ (s : State) (w : Byte) (i : Instr) (rest : List HostEvent),
    s.inbox = .writeReg .cmd w.toNat :: rest → decode w = .ok i → step s = exec i (s.setInbox rest)) ∧
  Reg.cmd.number = 0 ∧
  (∀ (p : Params) (s : State), s.readReg .cmd = 0 ∧ serve p (.readReg .cmd) s = .next (s.answer 0)) ∧
  (∀ (w : Byte) (i : Instr), decode w = .ok i → w.extractLsb' 3 5 = 0#5 ∧ w.toNat = (w.extractLsb' 0 3).toNat) ∧
  (∀ (p : Params) (s : State) (w : Byte) (e : Reject) (rest : List HostEvent),
    s.inbox = .writeReg .cmd w.toNat :: rest → decode w = .error e → ∀ t, stepFor p s ≠ .next t)

/-- What a step does, whatever the host's next event is: it serves that event, taken out of the host's list, and with no
event to serve it leaves the state as it is; and the word that `withFetchWord` places is the one the very next step runs.
Through this one, what is stated of `serve` holds of a step. How the machine gets its events is the model's own choice
(notes/assumptions/2.md). -/
def Obligations.PlacedWordRunsNext : Prop :=
  (∀ (p : Params) (s : State) (e : HostEvent) (rest : List HostEvent), s.inbox = e :: rest →
    stepFor p s = serve p e (s.setInbox rest)) ∧
  (∀ (s : State) (e : HostEvent) (rest : List HostEvent), s.inbox = e :: rest →
    step s = serve Config.params e (s.setInbox rest)) ∧
  (∀ (p : Params) (s : State), s.inbox = [] → stepFor p s = .next s) ∧
  (∀ s : State, s.inbox = [] → step s = .next s) ∧
  ∀ (s : State) (w : Nat) (i : Instr), decodeTableWord 8 w = some i → step (s.withFetchWord 8 w) = exec i s

/-! ## CAP -/

/-- R123: what CAP writes, in the closed form of R122, and that it writes nothing else. -/
def Obligations.CapWritesCapacity : Prop :=
  encode .cap = 0x01#8 ∧
  (∀ s : State, ∃ t : State, exec .cap s = .next t ∧
    t.capacity = (if 8 ≤ s.width * s.height * 3 then s.width * s.height * 3 / 8 - 1 else 0) ∧
    t.status = 0x00#8 ∧ t.capx = false ∧
    (s.width = 0 ∨ s.height = 0 ∨ s.width * s.height ≤ 5 → t.capacity = 0) ∧
    (s.width = 10 → s.height = 10 → t.capacity = 36) ∧
    (s.width = 65535 → s.height = 65535 → t.capacity = 1610563583) ∧
    (∀ p : Params, s.width < 2 ^ p.dimW → s.height < 2 ^ p.dimW →
      t.capacity ≤ capacity (2 ^ p.dimW - 1) (2 ^ p.dimW - 1)) ∧
    s.keepsRegsBut t [.status, .capacity] ∧ s.keepsPb t ∧ s.keepsMi t ∧ s.keepsMo t ∧ s.keepsBs t ∧ s.keepsHost t)

/-- R122: the range of `capacity`. -/
def Obligations.CapacityClosedFormAndRange : Prop :=
  (∀ w h : Nat, 8 ≤ w * h * 3 → capacity w h = w * h * 3 / 8 - 1) ∧
  (∀ w h : Nat, w * h * 3 < 8 → capacity w h = 0) ∧
  (∀ n : Nat, 8 ≤ n * 3 ↔ 3 ≤ n) ∧
  (∀ w h : Nat, w * h ≤ 5 → capacity w h = 0) ∧
  (∀ w h : Nat, w * h = 6 → capacity w h = 1) ∧
  (∀ (p : Params) (w h : Nat), w < 2 ^ p.dimW → h < 2 ^ p.dimW →
    8 * capacity w h < 3 * 2 ^ (2 * p.dimW) ∧ capacity w h < 2 ^ p.capW) ∧
  (∀ w h w' h' : Nat, w * h = w' * h' → capacity w h = capacity w' h') ∧
  (∀ w h w' h' : Nat, w * h ≤ w' * h' → capacity w h ≤ capacity w' h')

/-- R171, R172: for at least 3 pixels the advisory capacity and EMB's own check agree; for 0, 1 or 2 they differ, for
the empty message only. -/
def Obligations.CapacityAndEmbCheckAgree : Prop :=
  (∀ (s : State) (w h : Nat), w * h = s.npix → 3 ≤ s.npix →
    (s.milen ≤ capacity w h ↔ 8 * (s.milen + 1) ≤ 3 * s.npix) ∧
    (s.milen = capacity w h → ∃ t, exec .emb s = .next t ∧ t.capx = false)) ∧
  (∀ (s : State) (w h : Nat), w * h = s.npix → s.milen = capacity w h + 1 →
    ∃ t, exec .emb s = .next t ∧ t.capx = true) ∧
  (∀ (s : State) (w h : Nat), w * h = s.npix → s.npix ≤ 2 →
    capacity w h = 0 ∧ ¬ 8 * (s.milen + 1) ≤ 3 * s.npix ∧ ∃ t, exec .emb s = .next t ∧ t.capx = true)

/-! ## SER -/

/-- R103 (with R74 and R75): bit by bit what SER writes, and that it writes nothing else. -/
def Obligations.SerWritesSerializedMessage : Prop :=
  encode .ser = 0x02#8 ∧
  (∀ s : State, ∃ t : State, exec .ser s = .next t ∧
    t.blen = 8 * (s.milen + 1) ∧
    (∀ j < s.milen, ∀ b < 8, t.readBs (8 * j + b) = (s.readMi j).getLsbD (7 - b)) ∧
    (∀ b < 8, t.readBs (8 * s.milen + b) = false) ∧
    t.bitSeq = serialize s.message ∧
    t.status = 0x00#8 ∧ t.capx = false ∧
    (∀ p : Params, s.milen ≤ p.msgMax → t.blen ≤ p.bsMax) ∧
    (s.milen = 0 → t.blen = 8 ∧ t.bitSeq = List.replicate 8 false) ∧
    (s.message = [0x68#8, 0x69#8] → t.bitSeq =
      [false, true, true, false, true, false, false, false, false, true, true, false, true, false, false, true,
        false, false, false, false, false, false, false, false]) ∧
    s.keepsRegsBut t [.status, .blen] ∧ s.keepsPb t ∧ s.keepsMi t ∧ s.keepsMo t ∧ s.keepsHost t)

/-- R101, R183: the length of a serialized message, its last 8 bits, and that different messages differ. -/
def Obligations.SerializeLengthAndInjective : Prop :=
  (∀ M : List Byte, (serialize M).length = 8 * (M.length + 1) ∧ 8 ∣ (serialize M).length ∧ serialize M ≠ [] ∧
    (serialize M).drop (8 * M.length) = List.replicate 8 false) ∧
  (serialize []).length = 8 ∧ (∀ M : List Byte, 8 ≤ (serialize M).length) ∧
  ∀ M M' : List Byte, serialize M = serialize M' → M = M'

/-! ## DES -/

/-- R109 (with R76 and R105): group by group what DES writes, and that it writes nothing else. `e` is the index of the
first complete group that is all zero, or the number of complete groups. -/
def Obligations.DesReadsGroupsUpToTerminator : Prop :=
  encode .des = 0x03#8 ∧
  (∀ s : State, ∃ (t : State) (e : Nat), exec .des s = .next t ∧
    e ≤ s.blen / 8 ∧
    (∀ j < e, ∃ b < 8, s.readBs (8 * j + b) = true) ∧
    (e < s.blen / 8 → ∀ b < 8, s.readBs (8 * e + b) = false) ∧
    t.molen = e ∧
    (∀ j < e, (t.readMo j).toNat =
      ((List.range 8).map fun b => (s.readBs (8 * j + b)).toNat * 2 ^ (7 - b)).sum) ∧
    t.recovered = deserialize s.bitSeq ∧
    t.status = 0x00#8 ∧ t.capx = false ∧
    (∀ p : Params, s.blen ≤ p.bsMax → t.molen ≤ p.moMax) ∧
    (s.blen = 0 → t.molen = 0) ∧
    (s.bitSeq = [false, true, true, false, true, false, false, false, false, true, true, false, true, false, false, true,
        false, false, false, false, false, false, false, false] → t.recovered = [0x68#8, 0x69#8]) ∧
    s.keepsRegsBut t [.status, .molen] ∧ s.keepsPb t ∧ s.keepsMi t ∧ s.keepsBs t ∧ s.keepsHost t)

/-- R105: the two-phase form (scan for the terminator, then interpret) gives what R104's loop gives. -/
def Obligations.TwoPhaseDeserializerAgrees : Prop :=
  ∀ B : List Bit, deserialize B = deserializeTwoPhase B

/-- R106: the length of a recovered message. -/
def Obligations.DeserializeLengthBound : Prop :=
  ∀ B : List Bit, (deserialize B).length ≤ B.length / 8 ∧
    ((deserialize B).length = B.length / 8 ↔ ∀ j < B.length / 8, group B j ≠ List.replicate 8 false)

/-- R108: short sequences, a first group that is all zero, no all-zero group, and bits after the terminator. -/
def Obligations.DeserializeCornerCases : Prop :=
  (∀ B : List Bit, B.length < 8 → deserialize B = []) ∧
  (∀ X : List Bit, deserialize (List.replicate 8 false ++ X) = []) ∧
  (∀ B : List Bit, (∀ j < B.length / 8, group B j ≠ List.replicate 8 false) →
    (deserialize B).length = B.length / 8 ∧ deserialize B = deserialize (B.take (8 * (B.length / 8)))) ∧
  (∀ (B X : List Bit) (j : Nat), j < B.length / 8 → group B j = List.replicate 8 false →
    deserialize (B.take (8 * (j + 1)) ++ X) = deserialize B) ∧
  (∀ B B' : List Bit, B.length / 8 = B'.length / 8 → (∀ j < B.length / 8, group B j = group B' j) →
    deserialize B = deserialize B')

/-- R110: what comes back of a serialized message, whatever bits follow it. -/
def Obligations.DeserializeOfSerialize : Prop :=
  (∀ (M : List Byte) (X : List Bit), deserialize (serialize M ++ X) = M.takeWhile fun c => c ≠ 0x00#8) ∧
  (∀ M : List Byte, deserialize (serialize M) = M.takeWhile fun c => c ≠ 0x00#8) ∧
  ∀ M : List Byte, deserialize (serialize M) = M ↔ ∀ c ∈ M, c ≠ 0x00#8

/-- R177, R25: no character of a recovered message is 0, in the functions and in MO. -/
def Obligations.RecoveredCharactersAreNonzero : Prop :=
  (∀ P : List Byte, ∀ c ∈ extract P, 1 ≤ c.toNat ∧ c.toNat ≤ 255) ∧
  (∀ B : List Bit, ∀ c ∈ deserialize B, 1 ≤ c.toNat ∧ c.toNat ≤ 255) ∧
  (∀ s t : State, (exec .des s = .next t ∨ exec .ext s = .next t) → ∀ j < t.molen, t.readMo j ≠ 0x00#8)

/-! ## EMB -/

/-- R131, R132, R136 and the ok outcome of R133: every byte of PB after an EMB that fits, and that nothing else
changes. -/
def Obligations.EmbWritesMessageBits : Prop :=
  encode .emb = 0x04#8 ∧
  (∀ s : State, 8 * (s.milen + 1) ≤ 3 * s.npix → ∃ t : State, exec .emb s = .next t ∧
    t.blen = 8 * (s.milen + 1) ∧
    (∀ j < s.milen, ∀ b < 8, t.readBs (8 * j + b) = (s.readMi j).getLsbD (7 - b)) ∧
    (∀ b < 8, t.readBs (8 * s.milen + b) = false) ∧
    t.bitSeq = serialize s.message ∧
    (∀ k < 8 * (s.milen + 1), t.readPb (4 * (k / 3) + k % 3) =
      ((s.readPb (4 * (k / 3) + k % 3) &&& 0xFE#8) ||| (if t.readBs k then 0x01#8 else 0x00#8))) ∧
    (∀ i, (∀ k < 8 * (s.milen + 1), i ≠ 4 * (k / 3) + k % 3) → t.readPb i = s.readPb i) ∧
    t.status = 0x00#8 ∧ t.capx = false ∧
    s.keepsRegsBut t [.status, .blen] ∧ s.keepsMi t ∧ s.keepsMo t ∧ s.keepsHost t)

/-- R135, R174, R195: an EMB that does not fit ends with CapacityExceeded, PB as it was, BS and BLEN holding the
serialized message, and the machine goes on. -/
def Obligations.EmbOverfullRaisesAndKeepsPixels : Prop :=
  ∀ s : State, 8 * (s.milen + 1) > 3 * s.npix → ∃ t : State, exec .emb s = .next t ∧
    t.status = 0x01#8 ∧ t.capx = true ∧
    s.keepsPb t ∧ t.pixels = s.pixels ∧
    t.blen = 8 * (s.milen + 1) ∧ t.bitSeq = serialize s.message ∧
    (∀ j < s.milen, ∀ b < 8, t.readBs (8 * j + b) = (s.readMi j).getLsbD (7 - b)) ∧
    (∀ b < 8, t.readBs (8 * s.milen + b) = false) ∧
    s.keepsRegsBut t [.status, .blen] ∧ s.keepsMi t ∧ s.keepsMo t ∧ s.keepsHost t ∧
    ∀ i : Instr, ∃ u, exec i t = .next u

/-- R191, R14: CapacityExceeded is raised by EMB and by no other command, when and only when the message does not fit,
and STATUS says how the last command ended and nothing else. -/
def Obligations.CapacityExceededOnlyFromEmb : Prop :=
  ∀ (i : Instr) (s t : State), exec i s = .next t →
    (t.capx = true ↔ i = .emb ∧ 8 * (s.milen + 1) > 3 * s.npix) ∧
    (t.status = 0x00#8 ∨ t.status = 0x01#8) ∧
    (t.lastOutcome = .capacityExceeded ↔ i = .emb ∧ 8 * (s.milen + 1) > 3 * s.npix) ∧
    (∀ w : Byte, ∃ u : State, exec i (s.setStatus w) = .next u ∧ u = t)

/-- R130: EMB on the buffers is the source's byte-by-byte walk `embed` on the sequences, in both outcomes. -/
def Obligations.EmbRefinesEmbed : Prop :=
  ∀ s t : State, exec .emb s = .next t →
    (embed s.pixels s.message = none ∧ t.capx = true ∧ t.pixels = s.pixels) ∨
    (embed s.pixels s.message = some t.pixels ∧ t.capx = false)

/-- R169, R170, R179: what any EMB leaves alone in PB: the alpha bytes, bits 7:1 of every byte, every usable byte beyond
the last bit, the number of pixels; and all of PB when the message does not fit. -/
def Obligations.EmbKeepsAlphaAndCover : Prop :=
  ∀ s t : State, exec .emb s = .next t →
    (∀ i, i % 4 = 3 → t.readPb i = s.readPb i) ∧
    (∀ i, t.readPb i &&& 0xFE#8 = s.readPb i &&& 0xFE#8) ∧
    (∀ i, (t.readPb i).toNat / 2 = (s.readPb i).toNat / 2 ∧
      (t.readPb i).toNat ≤ (s.readPb i).toNat + 1 ∧ (s.readPb i).toNat ≤ (t.readPb i).toNat + 1) ∧
    (∀ i, i > usable (8 * (s.milen + 1) - 1) → t.readPb i = s.readPb i) ∧
    (∀ i, i ≥ 4 * s.npix → t.readPb i = s.readPb i) ∧
    (8 * (s.milen + 1) > 3 * s.npix → s.keepsPb t) ∧
    t.npix = s.npix ∧ t.pixels.length = s.pixels.length

/-- R181: when the message fits, a second EMB of it ends ok like the first and changes no byte of PB. -/
def Obligations.EmbIsIdempotent : Prop :=
  ∀ s : State, 8 * (s.milen + 1) ≤ 3 * s.npix →
    ∃ t u : State, exec .emb s = .next t ∧ t.capx = false ∧ exec .emb t = .next u ∧ u.capx = false ∧
      t.keepsPb u ∧ u.pixels = t.pixels

/-- R180: the result does not depend on the old bit 0 of the bytes the message goes to. -/
def Obligations.EmbIgnoresOldLsbs : Prop :=
  ∀ s s' : State, s'.npix = s.npix → s'.milen = s.milen → (∀ j < s.milen, s'.readMi j = s.readMi j) →
    8 * (s.milen + 1) ≤ 3 * s.npix →
    (∀ i < usable (8 * (s.milen + 1) - 1) + 1, i % 4 ≠ 3 → s'.readPb i &&& 0xFE#8 = s.readPb i &&& 0xFE#8) →
    (∀ i < usable (8 * (s.milen + 1) - 1) + 1, i % 4 = 3 → s'.readPb i = s.readPb i) →
    (∀ i ≥ usable (8 * (s.milen + 1) - 1) + 1, s'.readPb i = s.readPb i) →
    ∃ t t' : State, exec .emb s = .next t ∧ exec .emb s' = .next t' ∧ t.keepsPb t' ∧ t'.pixels = t.pixels

/-! ## EXT -/

/-- R153 (with R150, R151, R152): what EXT writes, and that it writes nothing else. -/
def Obligations.ExtReadsWholeBuffer : Prop :=
  encode .ext = 0x05#8 ∧
  (∀ s : State, ∃ t : State, exec .ext s = .next t ∧
    t.blen = 3 * s.npix ∧
    (∀ k < 3 * s.npix, t.readBs k = (s.readPb (4 * (k / 3) + k % 3)).getLsbD 0) ∧
    t.bitSeq = lsbs s.pixels ∧
    t.recovered = deserialize t.bitSeq ∧ t.recovered = extract s.pixels ∧ t.molen = (extract s.pixels).length ∧
    (∀ j < t.molen, t.recovered[j]? = some (t.readMo j)) ∧
    t.status = 0x00#8 ∧ t.capx = false ∧
    s.keepsRegsBut t [.status, .blen, .molen] ∧ s.keepsPb t ∧ s.keepsMi t ∧ s.keepsHost t)

/-- R154: EXT's results are a function of bit 0 of the usable bytes alone, and a second EXT gives the same ones. -/
def Obligations.ExtDependsOnLsbsOnly : Prop :=
  (∀ s s' : State, s'.npix = s.npix → (∀ k < 3 * s.npix, lsb (s'.readPb (usable k)) = lsb (s.readPb (usable k))) →
    ∃ t t' : State, exec .ext s = .next t ∧ exec .ext s' = .next t' ∧
      t'.blen = t.blen ∧ t'.bitSeq = t.bitSeq ∧ t'.molen = t.molen ∧ t'.recovered = t.recovered) ∧
  (∀ s : State, ∃ t u : State, exec .ext s = .next t ∧ exec .ext t = .next u ∧
    u.blen = t.blen ∧ u.bitSeq = t.bitSeq ∧ u.molen = t.molen ∧ u.recovered = t.recovered)

/-- R178: how long a recovered message can be, and how long it is after an EMB that fits. -/
def Obligations.RecoveredMessageLength : Prop :=
  (∀ s : State, ∃ t : State, exec .ext s = .next t ∧
    t.molen ≤ 3 * s.npix / 8 ∧
    (t.molen = 3 * s.npix / 8 ↔ ∀ j < 3 * s.npix / 8, group t.bitSeq j ≠ List.replicate 8 false) ∧
    (∀ w h : Nat, w * h = s.npix → 8 ≤ 3 * s.npix → 3 * s.npix / 8 = capacity w h + 1)) ∧
  (∀ s t u : State, 8 * (s.milen + 1) ≤ 3 * s.npix → exec .emb s = .next t → exec .ext t = .next u →
    u.molen = (s.message.takeWhile fun c => c ≠ 0x00#8).length ∧ u.molen ≤ s.milen ∧
    ∀ w h : Nat, w * h = s.npix → u.molen ≤ capacity w h)

/-! ## The commands together -/

/-- R165, R166, R167: EMB, then EXT. -/
def Obligations.EmbThenExtRoundTrip : Prop :=
  ∀ s : State, 8 * (s.milen + 1) ≤ 3 * s.npix →
    ∃ t u : State, exec .emb s = .next t ∧ t.capx = false ∧ exec .ext t = .next u ∧
      u.bitSeq = serialize s.message ++ (lsbs s.pixels).drop (8 * (s.milen + 1)) ∧
      u.recovered = (s.message.takeWhile fun c => c ≠ 0x00#8) ∧
      ((∀ c ∈ s.message, c ≠ 0x00#8) → u.recovered = s.message ∧ u.molen = s.milen)

/-- R182: of two messages that each fit the buffer, embedded one after the other, both embeds succeed and the second
message comes back. -/
def Obligations.LastEmbeddedMessageWins : Prop :=
  ∀ P M₁ M₂ : List Byte, P.length % 4 = 0 →
    8 * (M₁.length + 1) ≤ 3 * (P.length / 4) → 8 * (M₂.length + 1) ≤ 3 * (P.length / 4) →
    ∃ P₁ P₂ : List Byte, embed P M₁ = some P₁ ∧ embed P₁ M₂ = some P₂ ∧
      P₁.length = P.length ∧ P₂.length = P.length ∧ extract P₂ = M₂.takeWhile fun c => c ≠ 0x00#8

/-- R173: the empty message, on buffers of at least 3 pixels and on smaller ones. -/
def Obligations.EmptyMessageRoundTrip : Prop :=
  (∀ s : State, s.milen = 0 → 3 ≤ s.npix → ∃ t u : State, exec .emb s = .next t ∧ t.capx = false ∧
    exec .ext t = .next u ∧ u.molen = 0 ∧ u.recovered = []) ∧
  (∀ s : State, s.milen = 0 → s.npix ≤ 2 → ∃ t u : State, exec .emb s = .next t ∧ t.capx = true ∧
    exec .ext t = .next u ∧ u.molen = 0 ∧ u.recovered = [])

/-- R30, and the "reads" column of R29: what a command writes depends on what that column lists and on nothing else. Of
PB, EMB reads only the usable bytes it writes: BS, BLEN and STATUS depend on no byte of PB, and each of the first
8 (MILEN + 1) usable bytes afterwards on no byte of PB but itself. -/
def Obligations.CommandsReadOnlyTheirOperands : Prop :=
  (∀ s s' : State, s'.width = s.width → s'.height = s.height →
    ∃ t t', exec .cap s = .next t ∧ exec .cap s' = .next t' ∧ t'.capacity = t.capacity ∧ t'.status = t.status) ∧
  (∀ s s' : State, s'.milen = s.milen → (∀ j < s.milen, s'.readMi j = s.readMi j) →
    ∃ t t', exec .ser s = .next t ∧ exec .ser s' = .next t' ∧ t'.blen = t.blen ∧
      (∀ k < t.blen, t'.readBs k = t.readBs k) ∧ t'.status = t.status) ∧
  (∀ s s' : State, s'.blen = s.blen → (∀ k < s.blen, s'.readBs k = s.readBs k) →
    ∃ t t', exec .des s = .next t ∧ exec .des s' = .next t' ∧ t'.molen = t.molen ∧
      (∀ j < t.molen, t'.readMo j = t.readMo j) ∧ t'.status = t.status) ∧
  (∀ s s' : State, s'.milen = s.milen → (∀ j < s.milen, s'.readMi j = s.readMi j) → s'.npix = s.npix →
    ∃ t t', exec .emb s = .next t ∧ exec .emb s' = .next t' ∧ t'.blen = t.blen ∧
      (∀ k < t.blen, t'.readBs k = t.readBs k) ∧ t'.status = t.status ∧
      (∀ k < 8 * (s.milen + 1), s'.readPb (usable k) = s.readPb (usable k) →
        t'.readPb (usable k) = t.readPb (usable k))) ∧
  (∀ s s' : State, s'.npix = s.npix → (∀ i < 4 * s.npix, i % 4 ≠ 3 → s'.readPb i = s.readPb i) →
    ∃ t t', exec .ext s = .next t ∧ exec .ext s' = .next t' ∧ t'.blen = t.blen ∧
      (∀ k < t.blen, t'.readBs k = t.readBs k) ∧ t'.molen = t.molen ∧
      (∀ j < t.molen, t'.readMo j = t.readMo j) ∧ t'.status = t.status)

/-- R49, with R48: the usable bytes in ascending order. -/
def Obligations.UsableBytesEnumerated : Prop :=
  (∀ k l : Nat, k < l → usable k < usable l) ∧
  (∀ i : Nat, i % 4 ≠ 3 ↔ ∃ k, usable k = i) ∧
  (∀ i : Nat, isAlpha i = true ↔ i % 4 = 3) ∧
  (∀ N k : Nat, usable k < 4 * N ↔ k < 3 * N) ∧
  (∀ N : Nat, 0 < N → usable (3 * N - 1) = 4 * N - 2 ∧ 4 * N - 2 < 4 * N) ∧
  (∀ k : Nat, usable k / 4 = k / 3 ∧ usable k % 4 = k % 3) ∧
  (List.range 10).map usable = [0, 1, 2, 4, 5, 6, 8, 9, 10, 12]

/-! ## The host between commands -/

/-- R12, R15, R16, R18, R19, R21, R32: a host write of a value in range to a writable register sets that register and
changes nothing else of the machine. -/
def Obligations.HostWritesOneRegister : Prop :=
  ∀ (p : Params) (s : State) (r : Reg) (v : Nat), r ≠ .cmd → r.readOnly = false → v < r.bound p →
    ∃ t : State, serve p (.writeReg r v) s = .next t ∧ t.readReg r = v ∧
      s.keepsRegsBut t [r] ∧ s.keepsPb t ∧ s.keepsMi t ∧ s.keepsMo t ∧ s.keepsBs t ∧ s.keepsHost t

/-- R22: host writes that the machine does not accept, and the bounds that hence hold in every state a run reaches from
reset, whatever the host does. -/
def Obligations.RefusedHostWritesAndReachableBounds : Prop :=
  (∀ (p : Params) (s : State) (v : Nat),
    (p.npixMax < v → serve p (.writeReg .npix v) s = .refused (.valueOutOfRange .npix v)) ∧
    (p.msgMax < v → serve p (.writeReg .milen v) s = .refused (.valueOutOfRange .milen v)) ∧
    (p.bsMax < v → serve p (.writeReg .blen v) s = .refused (.valueOutOfRange .blen v)) ∧
    serve p (.writeReg .status v) s = .refused (.readOnlyRegister .status) ∧
    serve p (.writeReg .capacity v) s = .refused (.readOnlyRegister .capacity) ∧
    serve p (.writeReg .molen v) s = .refused (.readOnlyRegister .molen)) ∧
  (∀ (p : Params) (s : State) (j : Nat) (c : Byte),
    serve p (.writeMo j c) s = .refused (.readOnlyBuffer j)) ∧
  (∀ (p : Params) (evs : List HostEvent) (n : Nat) (s : State),
    runFor p n (State.reset.setInbox evs) = .next s →
      s.npix ≤ p.npixMax ∧ s.milen ≤ p.msgMax ∧ s.blen ≤ p.bsMax ∧ s.molen ≤ p.moMax)

/-- R23, R24, R26, R32: a host write to a cell sets that cell and changes nothing else of the machine. -/
def Obligations.HostWritesOneCell : Prop :=
  (∀ (p : Params) (s : State) (i : Nat) (v : Byte), i < 4 * p.npixMax →
    ∃ t : State, serve p (.writePb i v) s = .next t ∧ t.readPb i = v ∧ (∀ j ≠ i, t.readPb j = s.readPb j) ∧
      s.keepsRegsBut t [] ∧ s.keepsMi t ∧ s.keepsMo t ∧ s.keepsBs t ∧ s.keepsHost t) ∧
  (∀ (p : Params) (s : State) (i : Nat) (v : Byte), i < p.msgMax →
    ∃ t : State, serve p (.writeMi i v) s = .next t ∧ t.readMi i = v ∧ (∀ j ≠ i, t.readMi j = s.readMi j) ∧
      s.keepsRegsBut t [] ∧ s.keepsPb t ∧ s.keepsMo t ∧ s.keepsBs t ∧ s.keepsHost t) ∧
  (∀ (p : Params) (s : State) (i : Nat) (b : Bit), i < p.bsMax →
    ∃ t : State, serve p (.writeBs i b) s = .next t ∧ t.readBs i = b ∧ (∀ j ≠ i, t.readBs j = s.readBs j) ∧
      s.keepsRegsBut t [] ∧ s.keepsPb t ∧ s.keepsMi t ∧ s.keepsMo t ∧ s.keepsHost t)

/-- R32, R51: a host read answers the register's or the cell's value and changes nothing of the machine. -/
def Obligations.HostReadsAnswerAndChangeNothing : Prop :=
  (∀ (p : Params) (s : State) (e : HostEvent) (v : Nat),
    ((∃ r, e = .readReg r ∧ v = s.readReg r) ∨
      (∃ i, i < 4 * p.npixMax ∧ e = .readPb i ∧ v = (s.readPb i).toNat) ∨
      (∃ j, j < p.msgMax ∧ e = .readMi j ∧ v = (s.readMi j).toNat) ∨
      (∃ j, j < p.moMax ∧ e = .readMo j ∧ v = (s.readMo j).toNat) ∨
      (∃ k, k < p.bsMax ∧ e = .readBs k ∧ v = (s.readBs k).toNat)) →
    ∃ t : State, serve p e s = .next t ∧ t.reply = some v ∧ t.inbox = s.inbox ∧
      s.keepsRegsBut t [] ∧ s.keepsPb t ∧ s.keepsMi t ∧ s.keepsMo t ∧ s.keepsBs t)

/-- An access to a cell that the buffer does not have is refused, and the refusal names the cell; a write to MO is refused
as a write to a read-only buffer, whether or not MO has the cell (R22). That the absent cell is refused, and the name, are
the model's choice (notes/assumptions/7.md): the spec says only that there is no bounds fault (R53, R192). -/
def Obligations.AbsentCellsRefused : Prop :=
  ∀ (p : Params) (s : State) (i : Nat),
    (4 * p.npixMax ≤ i → serve p (.readPb i) s = .refused (.noSuchCell .pb i) ∧
      ∀ v, serve p (.writePb i v) s = .refused (.noSuchCell .pb i)) ∧
    (p.msgMax ≤ i → serve p (.readMi i) s = .refused (.noSuchCell .mi i) ∧
      ∀ v, serve p (.writeMi i v) s = .refused (.noSuchCell .mi i)) ∧
    (p.moMax ≤ i → serve p (.readMo i) s = .refused (.noSuchCell .mo i)) ∧
    (∀ v, serve p (.writeMo i v) s = .refused (.readOnlyBuffer i)) ∧
    (p.bsMax ≤ i → serve p (.readBs i) s = .refused (.noSuchCell .bs i) ∧
      ∀ b, serve p (.writeBs i b) s = .refused (.noSuchCell .bs i))

/-- R34, R220: a reset, whenever it comes, leaves every register 0 and every buffer empty, so does `State.reset`; and
what each command gives right after it. -/
def Obligations.ResetZeroesRegistersAndEmptiesBuffers : Prop :=
  (∀ r : Reg, State.reset.readReg r = 0) ∧
  (∀ (p : Params) (s : State), ∃ t : State, serve p .reset s = .next t ∧ (∀ r : Reg, t.readReg r = 0) ∧
    t.inbox = s.inbox) ∧
  (∀ s : State, (∀ r : Reg, s.readReg r = 0) →
    s.pixels = [] ∧ s.message = [] ∧ s.recovered = [] ∧ s.bitSeq = [] ∧ s.capx = false ∧
    (∃ t, exec .cap s = .next t ∧ t.capacity = 0) ∧
    (∃ t, exec .ser s = .next t ∧ t.bitSeq = List.replicate 8 false) ∧
    (∃ t, exec .des s = .next t ∧ t.recovered = []) ∧
    (∃ t, exec .ext s = .next t ∧ t.recovered = []) ∧
    (∃ t, exec .emb s = .next t ∧ t.capx = true))

/-- R27 and R34 as the model renders them: a cell at or beyond the new length, and every cell after a reset, holds a
free value, drawn afresh. The free value is the model's own (notes/assumptions/4.md). -/
def Obligations.CellsBeyondLengthAreFree : Prop :=
  (∀ s t : State, (exec .ser s = .next t ∨ exec .emb s = .next t ∨ exec .ext s = .next t) →
    ∀ k ≥ t.blen, t.readBs k = Config.freeBit (s.bs.epoch + 1) k) ∧
  (∀ s t : State, (exec .des s = .next t ∨ exec .ext s = .next t) →
    ∀ j ≥ t.molen, t.readMo j = Config.freeByte .mo (s.mo.epoch + 1) j) ∧
  (∀ (p : Params) (s t : State), serve p .reset s = .next t → ∀ i,
    t.readPb i = Config.freeByte .pb (s.pb.epoch + 1) i ∧ t.readMi i = Config.freeByte .mi (s.mi.epoch + 1) i ∧
    t.readMo i = Config.freeByte .mo (s.mo.epoch + 1) i ∧ t.readBs i = Config.freeBit (s.bs.epoch + 1) i)

/-! ## The whole machine -/

/-- The "written by" column of R12, R17 to R21, R23 to R26: which event can change which part of the state. -/
def Obligations.OnlyTheseEventsChangeEachPart : Prop :=
  ∀ (p : Params) (s t : State) (e : HostEvent), serve p e s = .next t → e ≠ .reset →
    (t.width ≠ s.width → ∃ v, e = .writeReg .width v) ∧
    (t.height ≠ s.height → ∃ v, e = .writeReg .height v) ∧
    (t.npix ≠ s.npix → ∃ v, e = .writeReg .npix v) ∧
    (t.milen ≠ s.milen → ∃ v, e = .writeReg .milen v) ∧
    (t.capacity ≠ s.capacity → e = .writeReg .cmd 1) ∧
    (t.molen ≠ s.molen → e = .writeReg .cmd 3 ∨ e = .writeReg .cmd 5) ∧
    (t.blen ≠ s.blen →
      (∃ v, e = .writeReg .blen v) ∨ e = .writeReg .cmd 2 ∨ e = .writeReg .cmd 4 ∨ e = .writeReg .cmd 5) ∧
    (t.status ≠ s.status → ∃ w : Byte, e = .writeReg .cmd w.toNat ∧ wordWf w = true) ∧
    (∀ i, t.readPb i ≠ s.readPb i → (∃ v, e = .writePb i v) ∨ (e = .writeReg .cmd 4 ∧ i % 4 ≠ 3 ∧ i < 4 * s.npix)) ∧
    (∀ j, t.readMi j ≠ s.readMi j → ∃ c, e = .writeMi j c) ∧
    (∀ j, t.readMo j ≠ s.readMo j → e = .writeReg .cmd 3 ∨ e = .writeReg .cmd 5) ∧
    (∀ k, t.readBs k ≠ s.readBs k →
      (∃ b, e = .writeBs k b) ∨ e = .writeReg .cmd 2 ∨ e = .writeReg .cmd 4 ∨ e = .writeReg .cmd 5)

/-- The machine goes on exactly on the events the host contract allows (R22, R86, R87, R88, R241), and refuses the others.
That an access to an absent cell and a value wider than its register are among the others is the model's choice
(notes/assumptions/7.md, 8.md), as is the list the event stands in (notes/assumptions/2.md). -/
def Obligations.AllowedEventsAndOnlyTheyStep : Prop :=
  ∀ (p : Params) (s : State) (e : HostEvent) (rest : List HostEvent), s.inbox = e :: rest →
    ((∃ t, stepFor p s = .next t) ↔ e.allowed p = true) ∧
    ((∃ r, stepFor p s = .refused r) ↔ e.allowed p = false)

/-- The state right after reset is legal, for every choice of the parameters. -/
def Obligations.ResetStateIsLegal : Prop :=
  ∀ (p : Params) (evs : List HostEvent), (State.reset.setInbox evs).Legal p

/-- Every step keeps the bounds of R22, the reserved bits of STATUS (R14), the nonzero characters of MO (R25) and the
canonical form of every buffer; the machine's own `step` among them. -/
def Obligations.StepKeepsStateLegal : Prop :=
  (∀ (p : Params) (s t : State), s.Legal p → stepFor p s = .next t → t.Legal p) ∧
  ∀ s t : State, s.Legal Config.params → step s = .next t → t.Legal Config.params

/-- The record of CapacityExceeded kept outside STATUS: a run of `n` steps has it exactly when at one of its steps a
command was performed and left CAPX = 1. -/
def Obligations.RaisedRecordMatchesStatus : Prop :=
  (∀ (p : Params) (s t : State) (i : Instr), s.nextCommand = some i → stepFor p s = .next t →
    (t.capx = true ↔ s.raisesNext = true)) ∧
  (∀ (p : Params) (n : Nat) (s : State), raisedWithin p n s = true ↔
    ∃ m < n, ∃ t u : State, runFor p m s = .next t ∧ stepFor p t = .next u ∧ t.nextCommand.isSome = true ∧
      u.capx = true)
end

