-- ==== Sys2Proof/Laws/Operands.lean ====
section
/-! SUPPORT. Bits of characters and carrier bytes, groups, and the traversal of the usable bytes. -/

namespace Sys2Proof.Machine

/-! ## Bits -/

@[simp] theorem charBits_length (c : Byte) : (charBits c).length = 8 := rfl

/-- Bit `t` of a character's bits is bit `7 - t` of the character. -/
theorem charBits_getElem (c : Byte) {t : Nat} (h : t < 8) :
    (charBits c)[t]'(by simpa using h) = bitOf c (7 - t) := by
  have downwards : charBits c = (List.range 8).map fun b => bitOf c (7 - b) := rfl
  simp [downwards]

@[simp] theorem terminator_length : terminator.length = 8 := rfl

/-- Reading a character's bits back gives its value. -/
@[simp] theorem groupValue_charBits (c : Byte) : groupValue (charBits c) = c.toNat := by
  revert c
  decide

@[simp] theorem groupChar_charBits (c : Byte) : groupChar (charBits c) = c := by
  simp [groupChar]

/-- A group has value 0 exactly when it is the terminator. -/
theorem groupValue_eq_zero_iff (b₀ b₁ b₂ b₃ b₄ b₅ b₆ b₇ : Bit) :
    groupValue [b₀, b₁, b₂, b₃, b₄, b₅, b₆, b₇] = 0 ↔ [b₀, b₁, b₂, b₃, b₄, b₅, b₆, b₇] = terminator := by
  revert b₀ b₁ b₂ b₃ b₄ b₅ b₆ b₇
  decide

theorem groupValue_lt (b₀ b₁ b₂ b₃ b₄ b₅ b₆ b₇ : Bit) :
    groupValue [b₀, b₁, b₂, b₃, b₄, b₅, b₆, b₇] < 256 := by
  revert b₀ b₁ b₂ b₃ b₄ b₅ b₆ b₇
  decide

/-- A group is the bits of the character it stands for. -/
theorem charBits_groupChar (b₀ b₁ b₂ b₃ b₄ b₅ b₆ b₇ : Bit) :
    charBits (groupChar [b₀, b₁, b₂, b₃, b₄, b₅, b₆, b₇]) = [b₀, b₁, b₂, b₃, b₄, b₅, b₆, b₇] := by
  revert b₀ b₁ b₂ b₃ b₄ b₅ b₆ b₇
  decide

/-! ## Carrier bytes -/

theorem lsb_eq_bitOf (v : Byte) : lsb v = bitOf v 0 := by
  revert v
  decide

@[simp] theorem lsb_setLsb (v : Byte) (b : Bit) : lsb (setLsb v b) = b := by
  revert v b
  decide

/-- Bits 7:1 of a carrier byte stay. -/
theorem bitOf_setLsb (v : Byte) (b : Bit) {n : Nat} (h : n ≠ 0) : bitOf (setLsb v b) n = bitOf v n := by
  rcases Nat.lt_or_ge n 8 with hn | hn
  · have : ∀ (v : Byte) (b : Bit) (n : Fin 8), n.val ≠ 0 → bitOf (setLsb v b) n.val = bitOf v n.val := by decide
    exact this v b ⟨n, hn⟩ h
  · simp [bitOf, BitVec.getLsbD_of_ge _ _ hn]

@[simp] theorem setLsb_setLsb (v : Byte) (a b : Bit) : setLsb (setLsb v a) b = setLsb v b := by
  revert v a b
  decide

@[simp] theorem setLsb_cover (v : Byte) (b : Bit) : setLsb v b &&& 0xFE#8 = v &&& 0xFE#8 := by
  revert v b
  decide

/-! ## The traversal -/

theorem usable_lt_usable {k l : Nat} (h : k < l) : usable k < usable l := by
  unfold usable
  omega

theorem usable_injective {k l : Nat} (h : usable k = usable l) : k = l := by
  rcases Nat.lt_trichotomy k l with hk | hk | hk
  · exact absurd h (Nat.ne_of_lt (usable_lt_usable hk))
  · exact hk
  · exact absurd h.symm (Nat.ne_of_lt (usable_lt_usable hk))

theorem usable_mod_ne (k : Nat) : usable k % 4 ≠ 3 := by
  unfold usable
  omega

theorem usable_lt_iff (k N : Nat) : usable k < 4 * N ↔ k < 3 * N := by
  unfold usable
  omega

/-- How many usable bytes lie below index `i`. -/
def usableBelow (i : Nat) : Nat := 3 * (i / 4) + min (i % 4) 3

@[simp] theorem usableBelow_zero : usableBelow 0 = 0 := rfl

@[simp] theorem usableBelow_usable (k : Nat) : usableBelow (usable k) = k := by
  unfold usableBelow usable
  omega

theorem usable_usableBelow {i : Nat} (h : i % 4 ≠ 3) : usable (usableBelow i) = i := by
  unfold usableBelow usable
  omega

theorem usableBelow_succ (i : Nat) : usableBelow (i + 1) = if i % 4 = 3 then usableBelow i else usableBelow i + 1 := by
  unfold usableBelow
  split <;> omega

theorem usableBelow_le_add (i n : Nat) : usableBelow i ≤ usableBelow (i + n) := by
  unfold usableBelow
  omega

/-- Every byte that is not alpha is usable. -/
theorem exists_usable {i : Nat} (h : i % 4 ≠ 3) : ∃ k, usable k = i :=
  ⟨3 * (i / 4) + i % 4, by unfold usable; omega⟩

end Sys2Proof.Machine
end

