-- ==== Sys2Proof/Laws/Codec.lean ====
section
/-! SUPPORT. `serialize` and `deserialize`, one lemma per way of looking at them. -/

namespace Sys2Proof.Machine

/-! ## serialize -/

@[simp] theorem serialize_nil : serialize [] = terminator := rfl

theorem serialize_cons (c : Byte) (M : List Byte) : serialize (c :: M) = charBits c ++ serialize M := by
  simp [serialize]

@[simp] theorem serialize_length (M : List Byte) : (serialize M).length = 8 * (M.length + 1) := by
  induction M with
  | nil => rfl
  | cons c M ih =>
    rw [serialize_cons, List.length_append, ih, charBits_length, List.length_cons]
    omega

/-- Bit `t` of character `j`. -/
theorem serialize_getElem? (M : List Byte) (j t : Nat) (hj : j < M.length) (ht : t < 8) :
    (serialize M)[8 * j + t]? = some (bitOf M[j] (7 - t)) := by
  induction M generalizing j with
  | nil => simp at hj
  | cons c M ih =>
    rw [serialize_cons]
    match j with
    | 0 =>
      rw [List.getElem?_append_left (by simpa using ht), List.getElem?_eq_getElem (by simpa using ht)]
      simp only [Nat.mul_zero, Nat.zero_add, List.getElem_cons_zero]
      rw [charBits_getElem c ht]
    | j + 1 =>
      rw [List.getElem?_append_right (by simp; omega)]
      have := ih j (by simpa using hj)
      simpa [show 8 * (j + 1) + t - 8 = 8 * j + t by omega] using this

/-- The terminator's bits. -/
theorem serialize_getElem?_terminator (M : List Byte) (t : Nat) (ht : t < 8) :
    (serialize M)[8 * M.length + t]? = some false := by
  induction M with
  | nil =>
    simp only [serialize_nil, List.length_nil, Nat.mul_zero, Nat.zero_add, terminator]
    rw [List.getElem?_replicate, if_pos ht]
  | cons c M ih =>
    rw [serialize_cons, List.getElem?_append_right (by simp; omega)]
    simpa [show 8 * (M.length + 1) + t - 8 = 8 * M.length + t by omega] using ih

/-! ## deserialize -/

/-- A sequence of fewer than 8 bits holds no group. -/
theorem deserialize_short {B : List Bit} (h : B.length < 8) : deserialize B = [] := by
  unfold deserialize
  split
  · simp only [List.length_cons] at h
    omega
  · rfl

/-- A first group that is the terminator ends the message. -/
@[simp] theorem deserialize_terminator (X : List Bit) : deserialize (terminator ++ X) = [] := by
  simp [terminator, List.replicate, deserialize, groupValue]

/-- A first group that is a nonzero character. -/
theorem deserialize_charBits {c : Byte} (h : c ≠ 0#8) (X : List Bit) :
    deserialize (charBits c ++ X) = c :: deserialize X := by
  have hv : groupValue (charBits c) ≠ 0 := by
    rw [groupValue_charBits]
    intro h0
    exact h (BitVec.eq_of_toNat_eq (by simpa using h0))
  have hc := groupChar_charBits c
  unfold charBits at hv hc ⊢
  simp only [List.cons_append, List.nil_append, deserialize, if_neg hv, hc]

theorem deserialize_charBits_zero (X : List Bit) : deserialize (charBits 0#8 ++ X) = [] :=
  deserialize_terminator X

/-- A bit sequence of at least 8 bits is a character's bits and the rest. -/
theorem exists_group {B : List Bit} (h : 8 ≤ B.length) : ∃ c X, B = charBits c ++ X := by
  match B, h with
  | b₀ :: b₁ :: b₂ :: b₃ :: b₄ :: b₅ :: b₆ :: b₇ :: X, _ =>
    exact ⟨groupChar [b₀, b₁, b₂, b₃, b₄, b₅, b₆, b₇], X, by rw [charBits_groupChar]; rfl⟩

/-- Induction over a bit sequence as `deserialize` consumes it. -/
theorem group_induction {P : List Bit → Prop} (short : ∀ B, B.length < 8 → P B)
    (stop : ∀ X, P (charBits 0#8 ++ X)) (next : ∀ c X, c ≠ 0#8 → P X → P (charBits c ++ X)) (B : List Bit) :
    P B := by
  by_cases h : B.length < 8
  · exact short B h
  · obtain ⟨c, X, hB⟩ := exists_group (Nat.le_of_not_lt h)
    have : X.length < B.length := by simp [hB]
    by_cases hc : c = 0#8
    · rw [hB, hc]; exact stop X
    · rw [hB]; exact next c X hc (group_induction short stop next X)
termination_by B.length

/-- No more characters than complete groups. -/
theorem deserialize_length_le (B : List Bit) : (deserialize B).length ≤ B.length / 8 := by
  induction B using group_induction with
  | short B h => simp [deserialize_short h]
  | stop X => simp [deserialize_charBits_zero]
  | next c X hc ih =>
    rw [deserialize_charBits hc]
    simp only [List.length_cons, List.length_append, charBits_length]
    omega

/-- No character read is 0. -/
theorem ne_zero_of_mem_deserialize {B : List Bit} {c : Byte} (h : c ∈ deserialize B) : c ≠ 0#8 := by
  induction B using group_induction with
  | short B hB => simp [deserialize_short hB] at h
  | stop X => simp [deserialize_charBits_zero] at h
  | next d X hd ih =>
    rw [deserialize_charBits hd] at h
    rcases List.mem_cons.1 h with rfl | h
    · exact hd
    · exact ih h

/-! ## Groups -/

theorem charBits_eq_terminator_iff (c : Byte) : charBits c = terminator ↔ c = 0#8 := by
  revert c
  decide

theorem group_append_zero (c : Byte) (X : List Bit) : group (charBits c ++ X) 0 = charBits c := by
  simp [group, charBits]

theorem group_append_succ (c : Byte) (X : List Bit) (j : Nat) : group (charBits c ++ X) (j + 1) = group X j := by
  unfold group
  rw [show 8 * (j + 1) = (charBits c).length + 8 * j by simp; omega, List.drop_append,
    List.drop_eq_nil_of_le (by simp)]
  simp

/-- What `deserialize` gives, group by group: the characters of the groups before the first that is all zero. -/
theorem deserialize_spec (B : List Bit) :
    (deserialize B).length ≤ B.length / 8 ∧
    (∀ j (h : j < (deserialize B).length), (deserialize B)[j] = groupChar (group B j) ∧ group B j ≠ terminator) ∧
    ((deserialize B).length < B.length / 8 → group B (deserialize B).length = terminator) := by
  induction B using group_induction with
  | short B h => simp [deserialize_short h]; omega
  | stop X =>
    rw [deserialize_charBits_zero]
    refine ⟨by simp, by simp, fun _ => ?_⟩
    rw [List.length_nil, group_append_zero]
    rfl
  | next c X hc ih =>
    rw [deserialize_charBits hc]
    obtain ⟨hle, hchar, hstop⟩ := ih
    refine ⟨by simp; omega, fun j hj => ?_, fun hlt => ?_⟩
    · match j with
      | 0 =>
        rw [group_append_zero, Ne, charBits_eq_terminator_iff]
        exact ⟨by simp, hc⟩
      | j + 1 =>
        rw [group_append_succ]
        simpa using hchar j (by simpa using hj)
    · simp only [List.length_cons, List.length_append, charBits_length] at hlt ⊢
      rw [group_append_succ]
      exact hstop (by omega)

end Sys2Proof.Machine
end

