-- ==== Sys2Proof/Laws/Memory.lean ====
section
/-! SUPPORT. A buffer's cells: reads after writes, refills, and the canonical form. -/

namespace Sys2Proof.Machine.Memory

variable {α : Type}

@[simp] theorem lookup_insert_same (l : List (Nat × α)) (i : Nat) (v : α) :
    lookup (insert l i v) i = some v := by
  induction l with
  | nil => simp [insert, lookup]
  | cons c l ih =>
    obtain ⟨a, u⟩ := c
    simp only [insert]
    split
    · simp [lookup]
    · split
      · simp [lookup]
      · rename_i h
        simp [lookup, h, ih]

theorem lookup_insert_other (l : List (Nat × α)) {i j : Nat} (v : α) (h : j ≠ i) :
    lookup (insert l i v) j = lookup l j := by
  induction l with
  | nil => simp [insert, lookup, h]
  | cons c l ih =>
    obtain ⟨a, u⟩ := c
    simp only [insert]
    split
    · simp [lookup, h]
    · split
      · rename_i h1 h2
        subst h2
        simp [lookup, h]
      · simp [lookup, ih]

@[simp] theorem read_write_same (free : Nat → Nat → α) (m : Memory α) (i : Nat) (v : α) :
    (m.write i v).read free i = v := by
  simp [read, write]

theorem read_write_other (free : Nat → Nat → α) (m : Memory α) {i j : Nat} (v : α) (h : j ≠ i) :
    (m.write i v).read free j = m.read free j := by
  simp [read, write, lookup_insert_other _ v h]

theorem lookup_cellsFrom (xs : List α) (k i : Nat) :
    lookup (cellsFrom k xs) i = if k ≤ i then xs[i - k]? else none := by
  induction xs generalizing k with
  | nil => simp [cellsFrom, lookup]
  | cons x xs ih =>
    simp only [cellsFrom, lookup, ih]
    rcases Nat.lt_trichotomy i k with h | h | h
    · rw [if_neg (by omega), if_neg (by omega), if_neg (by omega)]
    · subst h; simp
    · rw [if_neg (by omega), if_pos (by omega), if_pos (by omega)]
      obtain ⟨d, rfl⟩ : ∃ d, i = k + 1 + d := ⟨i - (k + 1), by omega⟩
      simp [show k + 1 + d - k = d + 1 by omega]

theorem read_refill (free : Nat → Nat → α) (m : Memory α) (xs : List α) {i : Nat} (h : i < xs.length) :
    (m.refill xs).read free i = xs[i] := by
  simp [read, refill, lookup_cellsFrom, h]

@[simp] theorem content_length (free : Nat → Nat → α) (m : Memory α) (n : Nat) :
    (m.content free n).length = n := by
  simp [content]

@[simp] theorem content_getElem (free : Nat → Nat → α) (m : Memory α) (n i : Nat)
    (h : i < (m.content free n).length) : (m.content free n)[i] = m.read free i := by
  simp [content]

/-- A refilled buffer's content is what it was filled with. -/
@[simp] theorem content_refill (free : Nat → Nat → α) (m : Memory α) (xs : List α) :
    (m.refill xs).content free xs.length = xs := by
  apply List.ext_getElem (by simp)
  intro i _ h
  simp [read_refill free m xs h]

theorem mem_insert {l : List (Nat × α)} {i : Nat} {v : α} {c : Nat × α} (h : c ∈ insert l i v) :
    c = (i, v) ∨ c ∈ l := by
  induction l with
  | nil => simpa [insert] using h
  | cons d l ih =>
    simp only [insert] at h
    split at h
    · simpa using h
    · split at h
      · rcases List.mem_cons.1 h with h | h
        · exact .inl h
        · exact .inr (List.mem_cons_of_mem _ h)
      · rcases List.mem_cons.1 h with h | h
        · exact .inr (by simp [h])
        · exact (ih h).imp id (List.mem_cons_of_mem _)

theorem insert_pairwise {l : List (Nat × α)} (i : Nat) (v : α) (h : l.Pairwise fun c d => c.1 < d.1) :
    (insert l i v).Pairwise fun c d => c.1 < d.1 := by
  induction l with
  | nil => simp [insert]
  | cons d l ih =>
    obtain ⟨hd, hl⟩ := List.pairwise_cons.1 h
    simp only [insert]
    split
    · rename_i hi
      refine List.pairwise_cons.2 ⟨fun c hc => ?_, h⟩
      rcases List.mem_cons.1 hc with rfl | hc
      · exact hi
      · exact Nat.lt_trans hi (hd c hc)
    · split
      · rename_i hi
        subst hi
        exact List.pairwise_cons.2 ⟨hd, hl⟩
      · refine List.pairwise_cons.2 ⟨fun c hc => ?_, ih hl⟩
        rcases mem_insert hc with rfl | hc
        · show d.1 < i
          omega
        · exact hd c hc

/-- A write keeps the canonical form. -/
theorem wf_write {m : Memory α} (i : Nat) (v : α) (h : m.wf) : (m.write i v).wf :=
  insert_pairwise i v h

theorem within_write {m : Memory α} {n i : Nat} (v : α) (hi : i < n) (h : m.within n) :
    (m.write i v).within n := by
  intro c hc
  rcases mem_insert hc with rfl | hc
  · exact hi
  · exact h c hc

theorem mem_cellsFrom {xs : List α} {k : Nat} {c : Nat × α} (h : c ∈ cellsFrom k xs) :
    k ≤ c.1 ∧ c.1 < k + xs.length := by
  induction xs generalizing k with
  | nil => simp [cellsFrom] at h
  | cons x xs ih =>
    rcases List.mem_cons.1 h with rfl | h
    · simp
    · have := ih h
      simp only [List.length_cons]
      omega

theorem cellsFrom_pairwise (xs : List α) (k : Nat) : (cellsFrom k xs).Pairwise fun c d => c.1 < d.1 := by
  induction xs generalizing k with
  | nil => simp [cellsFrom]
  | cons x xs ih =>
    refine List.pairwise_cons.2 ⟨fun c hc => ?_, ih (k + 1)⟩
    have := mem_cellsFrom hc
    show k < c.1
    omega

/-- A refill is in canonical form. -/
theorem wf_refill (m : Memory α) (xs : List α) : (m.refill xs).wf := cellsFrom_pairwise xs 0

theorem within_refill (m : Memory α) {xs : List α} {n : Nat} (h : xs.length ≤ n) : (m.refill xs).within n := by
  intro c hc
  have := mem_cellsFrom hc
  omega

/-- A buffer after a reset is in canonical form. -/
theorem wf_forget (m : Memory α) : m.forget.wf := List.Pairwise.nil

theorem within_forget (m : Memory α) (n : Nat) : m.forget.within n := by
  intro c hc
  cases hc

end Sys2Proof.Machine.Memory
end

