-- ==== Sys2Proof/Laws/State.lean ====
section
/-! SUPPORT. What each named update of the state leaves in each field. -/

namespace Sys2Proof.Machine.State

variable (s : State)

@[simp] theorem setStatus_status (w : Byte) : (s.setStatus w).status = w := rfl
@[simp] theorem setStatus_width (w : Byte) : (s.setStatus w).width = s.width := rfl
@[simp] theorem setStatus_height (w : Byte) : (s.setStatus w).height = s.height := rfl
@[simp] theorem setStatus_capacity (w : Byte) : (s.setStatus w).capacity = s.capacity := rfl
@[simp] theorem setStatus_npix (w : Byte) : (s.setStatus w).npix = s.npix := rfl
@[simp] theorem setStatus_milen (w : Byte) : (s.setStatus w).milen = s.milen := rfl
@[simp] theorem setStatus_molen (w : Byte) : (s.setStatus w).molen = s.molen := rfl
@[simp] theorem setStatus_blen (w : Byte) : (s.setStatus w).blen = s.blen := rfl
@[simp] theorem setStatus_pb (w : Byte) : (s.setStatus w).pb = s.pb := rfl
@[simp] theorem setStatus_mi (w : Byte) : (s.setStatus w).mi = s.mi := rfl
@[simp] theorem setStatus_mo (w : Byte) : (s.setStatus w).mo = s.mo := rfl
@[simp] theorem setStatus_bs (w : Byte) : (s.setStatus w).bs = s.bs := rfl
@[simp] theorem setStatus_inbox (w : Byte) : (s.setStatus w).inbox = s.inbox := rfl
@[simp] theorem setStatus_reply (w : Byte) : (s.setStatus w).reply = s.reply := rfl

@[simp] theorem storeCapacity_status (v : Nat) : (s.storeCapacity v).status = s.status := rfl
@[simp] theorem storeCapacity_width (v : Nat) : (s.storeCapacity v).width = s.width := rfl
@[simp] theorem storeCapacity_height (v : Nat) : (s.storeCapacity v).height = s.height := rfl
@[simp] theorem storeCapacity_capacity (v : Nat) : (s.storeCapacity v).capacity = v := rfl
@[simp] theorem storeCapacity_npix (v : Nat) : (s.storeCapacity v).npix = s.npix := rfl
@[simp] theorem storeCapacity_milen (v : Nat) : (s.storeCapacity v).milen = s.milen := rfl
@[simp] theorem storeCapacity_molen (v : Nat) : (s.storeCapacity v).molen = s.molen := rfl
@[simp] theorem storeCapacity_blen (v : Nat) : (s.storeCapacity v).blen = s.blen := rfl
@[simp] theorem storeCapacity_pb (v : Nat) : (s.storeCapacity v).pb = s.pb := rfl
@[simp] theorem storeCapacity_mi (v : Nat) : (s.storeCapacity v).mi = s.mi := rfl
@[simp] theorem storeCapacity_mo (v : Nat) : (s.storeCapacity v).mo = s.mo := rfl
@[simp] theorem storeCapacity_bs (v : Nat) : (s.storeCapacity v).bs = s.bs := rfl
@[simp] theorem storeCapacity_inbox (v : Nat) : (s.storeCapacity v).inbox = s.inbox := rfl
@[simp] theorem storeCapacity_reply (v : Nat) : (s.storeCapacity v).reply = s.reply := rfl

@[simp] theorem storeBits_status (B : List Bit) : (s.storeBits B).status = s.status := rfl
@[simp] theorem storeBits_width (B : List Bit) : (s.storeBits B).width = s.width := rfl
@[simp] theorem storeBits_height (B : List Bit) : (s.storeBits B).height = s.height := rfl
@[simp] theorem storeBits_capacity (B : List Bit) : (s.storeBits B).capacity = s.capacity := rfl
@[simp] theorem storeBits_npix (B : List Bit) : (s.storeBits B).npix = s.npix := rfl
@[simp] theorem storeBits_milen (B : List Bit) : (s.storeBits B).milen = s.milen := rfl
@[simp] theorem storeBits_molen (B : List Bit) : (s.storeBits B).molen = s.molen := rfl
@[simp] theorem storeBits_blen (B : List Bit) : (s.storeBits B).blen = B.length := rfl
@[simp] theorem storeBits_pb (B : List Bit) : (s.storeBits B).pb = s.pb := rfl
@[simp] theorem storeBits_mi (B : List Bit) : (s.storeBits B).mi = s.mi := rfl
@[simp] theorem storeBits_mo (B : List Bit) : (s.storeBits B).mo = s.mo := rfl
@[simp] theorem storeBits_bs (B : List Bit) : (s.storeBits B).bs = s.bs.refill B := rfl
@[simp] theorem storeBits_inbox (B : List Bit) : (s.storeBits B).inbox = s.inbox := rfl
@[simp] theorem storeBits_reply (B : List Bit) : (s.storeBits B).reply = s.reply := rfl

@[simp] theorem storeMessage_status (M : List Byte) : (s.storeMessage M).status = s.status := rfl
@[simp] theorem storeMessage_width (M : List Byte) : (s.storeMessage M).width = s.width := rfl
@[simp] theorem storeMessage_height (M : List Byte) : (s.storeMessage M).height = s.height := rfl
@[simp] theorem storeMessage_capacity (M : List Byte) : (s.storeMessage M).capacity = s.capacity := rfl
@[simp] theorem storeMessage_npix (M : List Byte) : (s.storeMessage M).npix = s.npix := rfl
@[simp] theorem storeMessage_milen (M : List Byte) : (s.storeMessage M).milen = s.milen := rfl
@[simp] theorem storeMessage_molen (M : List Byte) : (s.storeMessage M).molen = M.length := rfl
@[simp] theorem storeMessage_blen (M : List Byte) : (s.storeMessage M).blen = s.blen := rfl
@[simp] theorem storeMessage_pb (M : List Byte) : (s.storeMessage M).pb = s.pb := rfl
@[simp] theorem storeMessage_mi (M : List Byte) : (s.storeMessage M).mi = s.mi := rfl
@[simp] theorem storeMessage_mo (M : List Byte) : (s.storeMessage M).mo = s.mo.refill M := rfl
@[simp] theorem storeMessage_bs (M : List Byte) : (s.storeMessage M).bs = s.bs := rfl
@[simp] theorem storeMessage_inbox (M : List Byte) : (s.storeMessage M).inbox = s.inbox := rfl
@[simp] theorem storeMessage_reply (M : List Byte) : (s.storeMessage M).reply = s.reply := rfl

@[simp] theorem storePixel_status (i : Nat) (v : Byte) : (s.storePixel i v).status = s.status := rfl
@[simp] theorem storePixel_width (i : Nat) (v : Byte) : (s.storePixel i v).width = s.width := rfl
@[simp] theorem storePixel_height (i : Nat) (v : Byte) : (s.storePixel i v).height = s.height := rfl
@[simp] theorem storePixel_capacity (i : Nat) (v : Byte) : (s.storePixel i v).capacity = s.capacity := rfl
@[simp] theorem storePixel_npix (i : Nat) (v : Byte) : (s.storePixel i v).npix = s.npix := rfl
@[simp] theorem storePixel_milen (i : Nat) (v : Byte) : (s.storePixel i v).milen = s.milen := rfl
@[simp] theorem storePixel_molen (i : Nat) (v : Byte) : (s.storePixel i v).molen = s.molen := rfl
@[simp] theorem storePixel_blen (i : Nat) (v : Byte) : (s.storePixel i v).blen = s.blen := rfl
@[simp] theorem storePixel_pb (i : Nat) (v : Byte) : (s.storePixel i v).pb = s.pb.write i v := rfl
@[simp] theorem storePixel_mi (i : Nat) (v : Byte) : (s.storePixel i v).mi = s.mi := rfl
@[simp] theorem storePixel_mo (i : Nat) (v : Byte) : (s.storePixel i v).mo = s.mo := rfl
@[simp] theorem storePixel_bs (i : Nat) (v : Byte) : (s.storePixel i v).bs = s.bs := rfl
@[simp] theorem storePixel_inbox (i : Nat) (v : Byte) : (s.storePixel i v).inbox = s.inbox := rfl
@[simp] theorem storePixel_reply (i : Nat) (v : Byte) : (s.storePixel i v).reply = s.reply := rfl

@[simp] theorem storeMi_status (j : Nat) (c : Byte) : (s.storeMi j c).status = s.status := rfl
@[simp] theorem storeMi_width (j : Nat) (c : Byte) : (s.storeMi j c).width = s.width := rfl
@[simp] theorem storeMi_height (j : Nat) (c : Byte) : (s.storeMi j c).height = s.height := rfl
@[simp] theorem storeMi_capacity (j : Nat) (c : Byte) : (s.storeMi j c).capacity = s.capacity := rfl
@[simp] theorem storeMi_npix (j : Nat) (c : Byte) : (s.storeMi j c).npix = s.npix := rfl
@[simp] theorem storeMi_milen (j : Nat) (c : Byte) : (s.storeMi j c).milen = s.milen := rfl
@[simp] theorem storeMi_molen (j : Nat) (c : Byte) : (s.storeMi j c).molen = s.molen := rfl
@[simp] theorem storeMi_blen (j : Nat) (c : Byte) : (s.storeMi j c).blen = s.blen := rfl
@[simp] theorem storeMi_pb (j : Nat) (c : Byte) : (s.storeMi j c).pb = s.pb := rfl
@[simp] theorem storeMi_mi (j : Nat) (c : Byte) : (s.storeMi j c).mi = s.mi.write j c := rfl
@[simp] theorem storeMi_mo (j : Nat) (c : Byte) : (s.storeMi j c).mo = s.mo := rfl
@[simp] theorem storeMi_bs (j : Nat) (c : Byte) : (s.storeMi j c).bs = s.bs := rfl
@[simp] theorem storeMi_inbox (j : Nat) (c : Byte) : (s.storeMi j c).inbox = s.inbox := rfl
@[simp] theorem storeMi_reply (j : Nat) (c : Byte) : (s.storeMi j c).reply = s.reply := rfl

@[simp] theorem storeBs_status (k : Nat) (b : Bit) : (s.storeBs k b).status = s.status := rfl
@[simp] theorem storeBs_width (k : Nat) (b : Bit) : (s.storeBs k b).width = s.width := rfl
@[simp] theorem storeBs_height (k : Nat) (b : Bit) : (s.storeBs k b).height = s.height := rfl
@[simp] theorem storeBs_capacity (k : Nat) (b : Bit) : (s.storeBs k b).capacity = s.capacity := rfl
@[simp] theorem storeBs_npix (k : Nat) (b : Bit) : (s.storeBs k b).npix = s.npix := rfl
@[simp] theorem storeBs_milen (k : Nat) (b : Bit) : (s.storeBs k b).milen = s.milen := rfl
@[simp] theorem storeBs_molen (k : Nat) (b : Bit) : (s.storeBs k b).molen = s.molen := rfl
@[simp] theorem storeBs_blen (k : Nat) (b : Bit) : (s.storeBs k b).blen = s.blen := rfl
@[simp] theorem storeBs_pb (k : Nat) (b : Bit) : (s.storeBs k b).pb = s.pb := rfl
@[simp] theorem storeBs_mi (k : Nat) (b : Bit) : (s.storeBs k b).mi = s.mi := rfl
@[simp] theorem storeBs_mo (k : Nat) (b : Bit) : (s.storeBs k b).mo = s.mo := rfl
@[simp] theorem storeBs_bs (k : Nat) (b : Bit) : (s.storeBs k b).bs = s.bs.write k b := rfl
@[simp] theorem storeBs_inbox (k : Nat) (b : Bit) : (s.storeBs k b).inbox = s.inbox := rfl
@[simp] theorem storeBs_reply (k : Nat) (b : Bit) : (s.storeBs k b).reply = s.reply := rfl

@[simp] theorem answer_status (v : Nat) : (s.answer v).status = s.status := rfl
@[simp] theorem answer_width (v : Nat) : (s.answer v).width = s.width := rfl
@[simp] theorem answer_height (v : Nat) : (s.answer v).height = s.height := rfl
@[simp] theorem answer_capacity (v : Nat) : (s.answer v).capacity = s.capacity := rfl
@[simp] theorem answer_npix (v : Nat) : (s.answer v).npix = s.npix := rfl
@[simp] theorem answer_milen (v : Nat) : (s.answer v).milen = s.milen := rfl
@[simp] theorem answer_molen (v : Nat) : (s.answer v).molen = s.molen := rfl
@[simp] theorem answer_blen (v : Nat) : (s.answer v).blen = s.blen := rfl
@[simp] theorem answer_pb (v : Nat) : (s.answer v).pb = s.pb := rfl
@[simp] theorem answer_mi (v : Nat) : (s.answer v).mi = s.mi := rfl
@[simp] theorem answer_mo (v : Nat) : (s.answer v).mo = s.mo := rfl
@[simp] theorem answer_bs (v : Nat) : (s.answer v).bs = s.bs := rfl
@[simp] theorem answer_inbox (v : Nat) : (s.answer v).inbox = s.inbox := rfl
@[simp] theorem answer_reply (v : Nat) : (s.answer v).reply = some v := rfl

@[simp] theorem setInbox_status (evs : List HostEvent) : (s.setInbox evs).status = s.status := rfl
@[simp] theorem setInbox_width (evs : List HostEvent) : (s.setInbox evs).width = s.width := rfl
@[simp] theorem setInbox_height (evs : List HostEvent) : (s.setInbox evs).height = s.height := rfl
@[simp] theorem setInbox_capacity (evs : List HostEvent) : (s.setInbox evs).capacity = s.capacity := rfl
@[simp] theorem setInbox_npix (evs : List HostEvent) : (s.setInbox evs).npix = s.npix := rfl
@[simp] theorem setInbox_milen (evs : List HostEvent) : (s.setInbox evs).milen = s.milen := rfl
@[simp] theorem setInbox_molen (evs : List HostEvent) : (s.setInbox evs).molen = s.molen := rfl
@[simp] theorem setInbox_blen (evs : List HostEvent) : (s.setInbox evs).blen = s.blen := rfl
@[simp] theorem setInbox_pb (evs : List HostEvent) : (s.setInbox evs).pb = s.pb := rfl
@[simp] theorem setInbox_mi (evs : List HostEvent) : (s.setInbox evs).mi = s.mi := rfl
@[simp] theorem setInbox_mo (evs : List HostEvent) : (s.setInbox evs).mo = s.mo := rfl
@[simp] theorem setInbox_bs (evs : List HostEvent) : (s.setInbox evs).bs = s.bs := rfl
@[simp] theorem setInbox_inbox (evs : List HostEvent) : (s.setInbox evs).inbox = evs := rfl
@[simp] theorem setInbox_reply (evs : List HostEvent) : (s.setInbox evs).reply = s.reply := rfl

@[simp] theorem afterReset_status : (s.afterReset).status = 0x00#8 := rfl
@[simp] theorem afterReset_width : (s.afterReset).width = 0 := rfl
@[simp] theorem afterReset_height : (s.afterReset).height = 0 := rfl
@[simp] theorem afterReset_capacity : (s.afterReset).capacity = 0 := rfl
@[simp] theorem afterReset_npix : (s.afterReset).npix = 0 := rfl
@[simp] theorem afterReset_milen : (s.afterReset).milen = 0 := rfl
@[simp] theorem afterReset_molen : (s.afterReset).molen = 0 := rfl
@[simp] theorem afterReset_blen : (s.afterReset).blen = 0 := rfl
@[simp] theorem afterReset_pb : (s.afterReset).pb = s.pb.forget := rfl
@[simp] theorem afterReset_mi : (s.afterReset).mi = s.mi.forget := rfl
@[simp] theorem afterReset_mo : (s.afterReset).mo = s.mo.forget := rfl
@[simp] theorem afterReset_bs : (s.afterReset).bs = s.bs.forget := rfl
@[simp] theorem afterReset_inbox : (s.afterReset).inbox = s.inbox := rfl
@[simp] theorem afterReset_reply : (s.afterReset).reply = none := rfl

end Sys2Proof.Machine.State
end

