-- ==== Sys2Proof/Laws/Embedder.lean ====
section
/-! SUPPORT. Step 4 of EMB: what it leaves in PB, and that it changes nothing else. -/

namespace Sys2Proof.Machine

theorem State.readPb_storePixel_same (s : State) (i : Nat) (v : Byte) : (s.storePixel i v).readPb i = v := by
  simp [State.readPb]

theorem State.readPb_storePixel_other (s : State) {i j : Nat} (v : Byte) (h : j ≠ i) :
    (s.storePixel i v).readPb j = s.readPb j := by
  simp [State.readPb, Memory.read_write_other _ _ v h]

/-- Embedding changes PB only. -/
theorem State.embedBits_frame (B : List Bit) (k : Nat) (s : State) :
    State.embedBits B k s = { s with pb := (State.embedBits B k s).pb } := by
  induction B generalizing k s with
  | nil => rfl
  | cons b B ih =>
    rw [State.embedBits, ih]
    simp [State.storePixel]

/-- A byte of PB that is none of those the bits go to keeps its value. -/
theorem State.readPb_embedBits_other (B : List Bit) (k i : Nat) (s : State)
    (h : ∀ n < B.length, i ≠ usable (k + n)) : (State.embedBits B k s).readPb i = s.readPb i := by
  induction B generalizing k s with
  | nil => rfl
  | cons b B ih =>
    rw [State.embedBits, ih]
    · exact State.readPb_storePixel_other _ _ (h 0 (by simp))
    · intro n hn
      have := h (n + 1) (by simpa using hn)
      rwa [show k + (n + 1) = k + 1 + n by omega] at this

/-- Bit `n` goes to bit 0 of the byte at `usable (k + n)`. -/
theorem State.readPb_embedBits_usable (B : List Bit) (k n : Nat) (s : State) (h : n < B.length) :
    (State.embedBits B k s).readPb (usable (k + n)) = setLsb (s.readPb (usable (k + n))) B[n] := by
  induction B generalizing k n s with
  | nil => simp at h
  | cons b B ih =>
    rw [State.embedBits]
    match n with
    | 0 =>
      rw [State.readPb_embedBits_other]
      · simp [State.readPb_storePixel_same]
      · intro m _ he
        have := usable_injective he
        omega
    | n + 1 =>
      have hn : n < B.length := by simpa using h
      rw [show k + (n + 1) = k + 1 + n by omega, ih (k + 1) n _ hn, State.readPb_storePixel_other]
      · simp
      · intro he
        have := usable_injective he
        omega

theorem State.wf_embedBits (B : List Bit) (k : Nat) {s : State} (h : s.pb.wf) :
    (State.embedBits B k s).pb.wf := by
  induction B generalizing k s with
  | nil => exact h
  | cons b B ih => exact ih (k + 1) (by simpa using Memory.wf_write _ _ h)

theorem State.within_embedBits (B : List Bit) (k N : Nat) {s : State} (hB : k + B.length ≤ 3 * N)
    (h : s.pb.within (4 * N)) : (State.embedBits B k s).pb.within (4 * N) := by
  induction B generalizing k s with
  | nil => exact h
  | cons b B ih =>
    simp only [List.length_cons] at hB
    refine ih (k + 1) (by omega) ?_
    exact Memory.within_write _ ((usable_lt_iff k N).2 (by omega)) h

/-- What embedding does to anything that does not look at PB: nothing. -/
theorem State.of_embedBits {β : Type} (f : State → β) (hf : ∀ (t : State) (m : Memory Byte), f { t with pb := m } = f t)
    (B : List Bit) (k : Nat) (s : State) : f (State.embedBits B k s) = f s := by
  rw [State.embedBits_frame]
  exact hf _ _

/-! ## The walk over a sequence -/

@[simp] theorem embedWalk_length (i : Nat) (B : List Bit) (P : List Byte) : (embedWalk i B P).length = P.length := by
  induction P generalizing i B with
  | nil => cases B <;> rfl
  | cons v P ih =>
    cases B with
    | nil => rfl
    | cons b B =>
      simp only [embedWalk]
      split <;> simp [ih]

/-- Byte `j` of the walk from index `i`: an alpha byte stays, a usable one takes the bit of its rank, if there is one. -/
theorem embedWalk_getElem (P : List Byte) (i : Nat) (B : List Bit) (j : Nat) (h : j < P.length) :
    (embedWalk i B P)[j]'(by simpa using h) =
      if (i + j) % 4 = 3 then P[j]
      else (B[usableBelow (i + j) - usableBelow i]?.map (setLsb P[j])).getD P[j] := by
  induction P generalizing i B j with
  | nil => simp at h
  | cons v P ih =>
    cases B with
    | nil => simp [embedWalk]
    | cons b B =>
      simp only [embedWalk, isAlpha, beq_iff_eq]
      have hmono := usableBelow_le_add (i + 1) (j - 1)
      by_cases hi : i % 4 = 3
      · simp only [hi, if_true]
        match j with
        | 0 => simp [hi]
        | j + 1 =>
          simp only [List.getElem_cons_succ]
          rw [ih (i + 1) (b :: B) j (by simpa using h), usableBelow_succ, if_pos hi, show i + 1 + j = i + (j + 1) by omega]
      · simp only [hi, if_false]
        match j with
        | 0 => simp [hi]
        | j + 1 =>
          simp only [List.getElem_cons_succ]
          rw [ih (i + 1) B j (by simpa using h), show i + 1 + j = i + (j + 1) by omega]
          rw [Nat.add_sub_cancel, show i + 1 + j = i + (j + 1) by omega, usableBelow_succ, if_neg hi] at hmono
          rw [usableBelow_succ, if_neg hi,
            show usableBelow (i + (j + 1)) - usableBelow i = usableBelow (i + (j + 1)) - (usableBelow i + 1) + 1 by omega]
          simp

end Sys2Proof.Machine
end

