-- ==== Sys2Proof/Laws/Exec.lean ====
section
/-! SUPPORT. What each command does, said once: the state it leaves, and what may be read of it. -/

namespace Sys2Proof.Machine

/-! ## Reads after the shared operations -/

@[simp] theorem State.readPb_setStatus (s : State) (w : Byte) (i : Nat) : (s.setStatus w).readPb i = s.readPb i := rfl
@[simp] theorem State.readMi_setStatus (s : State) (w : Byte) (j : Nat) : (s.setStatus w).readMi j = s.readMi j := rfl
@[simp] theorem State.readMo_setStatus (s : State) (w : Byte) (j : Nat) : (s.setStatus w).readMo j = s.readMo j := rfl
@[simp] theorem State.readBs_setStatus (s : State) (w : Byte) (k : Nat) : (s.setStatus w).readBs k = s.readBs k := rfl
@[simp] theorem State.readPb_storeCapacity (s : State) (v i : Nat) :
    (s.storeCapacity v).readPb i = s.readPb i := rfl
@[simp] theorem State.readMi_storeCapacity (s : State) (v j : Nat) :
    (s.storeCapacity v).readMi j = s.readMi j := rfl
@[simp] theorem State.readMo_storeCapacity (s : State) (v j : Nat) :
    (s.storeCapacity v).readMo j = s.readMo j := rfl
@[simp] theorem State.readBs_storeCapacity (s : State) (v k : Nat) :
    (s.storeCapacity v).readBs k = s.readBs k := rfl
@[simp] theorem State.readPb_storeBits (s : State) (B : List Bit) (i : Nat) : (s.storeBits B).readPb i = s.readPb i := rfl
@[simp] theorem State.readMi_storeBits (s : State) (B : List Bit) (j : Nat) : (s.storeBits B).readMi j = s.readMi j := rfl
@[simp] theorem State.readMo_storeBits (s : State) (B : List Bit) (j : Nat) : (s.storeBits B).readMo j = s.readMo j := rfl
@[simp] theorem State.readPb_storeMessage (s : State) (M : List Byte) (i : Nat) :
    (s.storeMessage M).readPb i = s.readPb i := rfl
@[simp] theorem State.readMi_storeMessage (s : State) (M : List Byte) (j : Nat) :
    (s.storeMessage M).readMi j = s.readMi j := rfl
@[simp] theorem State.readBs_storeMessage (s : State) (M : List Byte) (k : Nat) :
    (s.storeMessage M).readBs k = s.readBs k := rfl

/-- A cell below the new length holds the sequence's element. -/
theorem State.readBs_storeBits (s : State) (B : List Bit) {k : Nat} (h : k < B.length) :
    (s.storeBits B).readBs k = B[k] := Memory.read_refill _ _ _ h

theorem State.readMo_storeMessage (s : State) (M : List Byte) {j : Nat} (h : j < M.length) :
    (s.storeMessage M).readMo j = M[j] := Memory.read_refill _ _ _ h

@[simp] theorem State.bitSeq_storeBits (s : State) (B : List Bit) : (s.storeBits B).bitSeq = B :=
  Memory.content_refill _ _ _

@[simp] theorem State.recovered_storeMessage (s : State) (M : List Byte) : (s.storeMessage M).recovered = M :=
  Memory.content_refill _ _ _

@[simp] theorem State.bitSeq_setStatus (s : State) (w : Byte) : (s.setStatus w).bitSeq = s.bitSeq := rfl
@[simp] theorem State.recovered_setStatus (s : State) (w : Byte) : (s.setStatus w).recovered = s.recovered := rfl
@[simp] theorem State.bitSeq_storeMessage (s : State) (M : List Byte) : (s.storeMessage M).bitSeq = s.bitSeq := rfl

@[simp] theorem State.message_length (s : State) : s.message.length = s.milen := Memory.content_length _ _ _
@[simp] theorem State.pixels_length (s : State) : s.pixels.length = 4 * s.npix := Memory.content_length _ _ _
@[simp] theorem State.bitSeq_length (s : State) : s.bitSeq.length = s.blen := Memory.content_length _ _ _
@[simp] theorem State.recovered_length (s : State) : s.recovered.length = s.molen := Memory.content_length _ _ _
@[simp] theorem State.readOut_length (s : State) : s.readOut.length = 3 * s.npix := by simp [State.readOut]

theorem State.readOut_getElem (s : State) {k : Nat} (h : k < s.readOut.length) :
    s.readOut[k] = lsb (s.readPb (usable k)) := by
  simp [State.readOut]

/-! ## One equation per command -/

theorem exec_cap (s : State) :
    exec .cap s = .next ((s.storeCapacity (capacity s.width s.height)).setStatus 0x00#8) := rfl

theorem exec_ser (s : State) : exec .ser s = .next ((s.storeBits (serialize s.message)).setStatus 0x00#8) := rfl

theorem exec_des (s : State) : exec .des s = .next ((s.storeMessage (deserialize s.bitSeq)).setStatus 0x00#8) := rfl

theorem exec_emb_ok {s : State} (h : 8 * (s.milen + 1) ≤ 3 * s.npix) :
    exec .emb s =
      .next ((State.embedBits (serialize s.message) 0 (s.storeBits (serialize s.message))).setStatus 0x00#8) := by
  have : ¬ (serialize s.message).length > 3 * s.npix := by simp; omega
  simp only [exec, execEmb, if_neg this]
  rfl

theorem exec_emb_overfull {s : State} (h : 3 * s.npix < 8 * (s.milen + 1)) :
    exec .emb s = .next ((s.storeBits (serialize s.message)).setStatus 0x01#8) := by
  have : (serialize s.message).length > 3 * s.npix := by simp; omega
  simp only [exec, execEmb, if_pos this]
  rfl

theorem exec_ext (s : State) :
    exec .ext s =
      .next (((s.storeBits s.readOut).storeMessage (deserialize s.readOut)).setStatus 0x00#8) := rfl

end Sys2Proof.Machine
end

