-- ==== Sys2Proof/Laws/Extractor.lean ====
section
/-! SUPPORT. The source's walk of the read-out, byte by byte. -/

namespace Sys2Proof.Machine

theorem lsbsWalk_length (P : List Byte) (i : Nat) :
    (lsbsWalk i P).length = usableBelow (i + P.length) - usableBelow i := by
  induction P generalizing i with
  | nil => simp [lsbsWalk]
  | cons v P ih =>
    have hmono := usableBelow_le_add (i + 1) P.length
    simp only [lsbsWalk, isAlpha, beq_iff_eq, List.length_cons]
    rw [show i + (P.length + 1) = i + 1 + P.length by omega]
    by_cases hi : i % 4 = 3
    · rw [if_pos hi, ih, usableBelow_succ i, if_pos hi]
    · rw [if_neg hi, List.length_cons, ih]
      rw [usableBelow_succ i, if_neg hi] at hmono ⊢
      omega

/-- The bit of the usable byte `j` of the walk from index `i` stands at that byte's rank. -/
theorem lsbsWalk_getElem? (P : List Byte) (i j : Nat) (h : j < P.length) (hu : (i + j) % 4 ≠ 3) :
    (lsbsWalk i P)[usableBelow (i + j) - usableBelow i]? = some (lsb P[j]) := by
  induction P generalizing i j with
  | nil => simp at h
  | cons v P ih =>
    simp only [lsbsWalk, isAlpha, beq_iff_eq]
    match j with
    | 0 =>
      rw [if_neg (by simpa using hu)]
      simp
    | j + 1 =>
      have ih' := ih (i + 1) j (by simpa using h) (by rwa [show i + 1 + j = i + (j + 1) by omega])
      have hmono := usableBelow_le_add (i + 1) j
      rw [show i + 1 + j = i + (j + 1) by omega] at ih' hmono
      by_cases hi : i % 4 = 3
      · rw [if_pos hi]
        rw [usableBelow_succ, if_pos hi] at ih'
        simpa using ih'
      · rw [if_neg hi]
        rw [usableBelow_succ, if_neg hi] at ih' hmono
        rw [show usableBelow (i + (j + 1)) - usableBelow i = usableBelow (i + (j + 1)) - (usableBelow i + 1) + 1 by omega]
        simpa using ih'

end Sys2Proof.Machine
end

