-- ==== Sys2Proof/Laws/Host.lean ====
section
/-! SUPPORT. What the host port can do, said once for each of its operations. -/

namespace Sys2Proof.Machine

/-- A word that decodes is the command word of what it decodes to. -/
theorem eq_encode_of_decode {w : Byte} {i : Instr} (h : decode w = .ok i) : w = encode i := by
  have key : ∀ i : Instr, ∀ w : Byte, decode w = .ok i → w = encode i := by
    intro i
    cases i <;> decide
  exact key i w h

/-- `issue` goes on only by performing a command. -/
theorem issue_next {w : Byte} {s t : State} (h : issue w s = .next t) : ∃ i, decode w = .ok i ∧ exec i s = .next t := by
  unfold issue at h
  split at h
  · exact ⟨_, ‹_›, h⟩
  · cases h
  · cases h

/-- A host write to a register that is accepted performs a command or sets that register. -/
theorem hostWriteReg_next {p : Params} {r : Reg} {v : Nat} {s t : State} (h : hostWriteReg p r v s = .next t) :
    (r = .cmd ∧ ∃ i, v = (encode i).toNat ∧ exec i s = .next t) ∨
    (r ≠ .cmd ∧ r.readOnly = false ∧ v < r.bound p ∧ t = s.setReg r v) := by
  unfold hostWriteReg at h
  split at h
  · cases h
  · rename_i hro
    split at h
    · rename_i hv
      split at h
      · rename_i hr
        obtain ⟨i, hd, he⟩ := issue_next h
        refine .inl ⟨hr, i, ?_, he⟩
        subst hr
        have hv : v < 2 ^ 8 := hv
        rw [← eq_encode_of_decode hd, BitVec.toNat_ofNat, Nat.mod_eq_of_lt hv]
      · cases h
        exact .inr ⟨‹_›, by simpa using hro, hv, rfl⟩
    · cases h

/-- An access to a cell goes on only where the buffer has the cell. -/
theorem withCell_next {p : Params} {sp : Space} {i : Nat} {t u : State} (h : withCell p sp i t = .next u) :
    i < cellCount p sp ∧ u = t := by
  unfold withCell at h
  split at h
  · cases h
    exact ⟨‹_›, rfl⟩
  · cases h

/-- One step: nothing to do, or the first event of the inbox. -/
theorem advance_next {p : Params} {s t : State} (h : advance p s = .next t) :
    (s.inbox = [] ∧ t = s) ∨ ∃ e rest, s.inbox = e :: rest ∧ serve p e (s.setInbox rest) = .next t := by
  unfold advance at h
  split at h
  · cases h
    exact .inl ⟨‹_›, rfl⟩
  · exact .inr ⟨_, _, ‹_›, h⟩

end Sys2Proof.Machine
end

