-- ==== Sys2Proof/Laws/PerInstr.lean ====
section
/-! SUPPORT. Statements about every instruction as syntax, one lemma per constructor. -/

namespace Sys2Proof.Laws

/-- The command word of an instruction is legal and stands in the opcode table beside that instruction (R82). -/
def LegalWord.Statement (i : Instr) : Prop :=
  wordWf (encode i) = true ∧ ∃ r ∈ opcodeTable, r.instr = i ∧ r.pattern = encode i ∧ r.mask = 0xFF#8

theorem LegalWord.cap : LegalWord.Statement .cap := by unfold LegalWord.Statement; decide
theorem LegalWord.ser : LegalWord.Statement .ser := by unfold LegalWord.Statement; decide
theorem LegalWord.des : LegalWord.Statement .des := by unfold LegalWord.Statement; decide
theorem LegalWord.emb : LegalWord.Statement .emb := by unfold LegalWord.Statement; decide
theorem LegalWord.ext : LegalWord.Statement .ext := by unfold LegalWord.Statement; decide

end Sys2Proof.Laws
end

