-- ==== Sys2Proof/Tests/Slice0.lean ====
section
/-! SUPPORT. Tests whose expected results stand in spec/95_test_vectors.md or are read off a rule of spec/, and the
witnesses that the statements' hypotheses can be met. -/

namespace Sys2Proof.Tests

open Sys2Proof Sys2Proof.Machine

/-- A buffer that holds a sequence from index 0 on. -/
def mem {α : Type} (xs : List α) : Memory α := { epoch := 0, cells := Memory.cellsFrom 0 xs }

/-- The 2 x 4 buffer B0 of spec/95 section 2.4. -/
def b0 : List Byte :=
  [0x10#8, 0x21#8, 0x32#8, 0xFF#8, 0x43#8, 0x54#8, 0x65#8, 0x00#8, 0x76#8, 0x87#8, 0x98#8, 0x7F#8, 0xA9#8, 0xBA#8,
    0xCB#8, 0x80#8] ++
  [0xDC#8, 0xED#8, 0xFE#8, 0x01#8, 0x0F#8, 0x1E#8, 0x2D#8, 0xFE#8, 0x3C#8, 0x4B#8, 0x5A#8, 0x55#8, 0x69#8, 0x78#8,
    0x87#8, 0xAA#8]

/-- The buffer B1 of spec/95 P1: B0 with "hi" in it. -/
def b1 : List Byte :=
  [0x10#8, 0x21#8, 0x33#8, 0xFF#8, 0x42#8, 0x55#8, 0x64#8, 0x00#8, 0x76#8, 0x86#8, 0x98#8, 0x7F#8, 0xA9#8, 0xBB#8,
    0xCA#8, 0x80#8] ++
  [0xDD#8, 0xEC#8, 0xFE#8, 0x01#8, 0x0F#8, 0x1E#8, 0x2C#8, 0xFE#8, 0x3C#8, 0x4A#8, 0x5A#8, 0x55#8, 0x68#8, 0x78#8,
    0x86#8, 0xAA#8]

/-- Bits written as 0 and 1, the first bit first. -/
def bits (xs : List Nat) : List Bit := xs.map fun x => x == 1

/-- A state with a pixel buffer and a message. -/
def carrier (P M : List Byte) : State :=
  { State.reset with npix := P.length / 4, pb := mem P, milen := M.length, mi := mem M }

/-- A state with a bit sequence. -/
def holding (B : List Bit) : State := { State.reset with blen := B.length, bs := mem B }

/-- A property of the next state. -/
def after (o : Host.Outcome State Fault Refusal) (f : State → Bool) : Bool :=
  match o with
  | .next t => f t
  | .fault _ => false
  | .refused _ => false

/-! ## Decoding: R82's words bit by bit, and the reserved ones (V-CMD-1 to V-CMD-4) -/

theorem test_decode_cap : decode 0b00000_001#8 = .ok .cap := by decide
theorem test_decode_ser : decode 0b00000_010#8 = .ok .ser := by decide
theorem test_decode_des : decode 0b00000_011#8 = .ok .des := by decide
theorem test_decode_emb : decode 0b00000_100#8 = .ok .emb := by decide
theorem test_decode_ext : decode 0b00000_101#8 = .ok .ext := by decide
theorem test_decode_reserved_op :
    decode 0x00#8 = .error (.reservedOp 0x00#8) ∧ decode 0x06#8 = .error (.reservedOp 0x06#8) ∧
      decode 0x07#8 = .error (.reservedOp 0x07#8) := by decide
theorem test_decode_reserved_bits :
    decode 0x09#8 = .error (.reservedBits 0x09#8) ∧ decode 0x84#8 = .error (.reservedBits 0x84#8) ∧
      decode 0xFF#8 = .error (.reservedBits 0xFF#8) := by decide
theorem test_table_rows_do_not_overlap : opcodeTable.Pairwise fun r q => r.pattern &&& q.mask ≠ q.pattern := by decide
theorem test_decode_bytes_takes_one : decodeBytes [0x05#8, 0x01#8] = some (.ok (.ext, [0x01#8])) := by decide
theorem test_mnemonic_of_row : Instr.ofMnemonic "EMB" = some .emb ∧ Instr.ofMnemonic "NOP" = none := by decide

/-! ## WellFormed: each check refuses an ill-formed term -/

theorem test_wf_instr : ∀ i ∈ [Instr.cap, .ser, .des, .emb, .ext], i.wf = true := by decide
theorem test_wf_refuses_reserved_bits : wordWf 0b00001_001#8 = false := by decide
theorem test_wf_refuses_op_zero : wordWf 0b00000_000#8 = false := by decide
theorem test_wf_refuses_op_six : wordWf 0b00000_110#8 = false := by decide
theorem test_wf_accepts_legal_words : ∀ i ∈ [Instr.cap, .ser, .des, .emb, .ext], wordWf (encode i) = true := by decide
theorem test_wf_refuses_zero_width : Params.wf { dimW := 0, npixMax := 1, msgMax := 1 } = false := by decide
theorem test_wf_accepts_suggested : Params.wf Config.params = true := by decide

/-! ## The five commands -/

/-- V-CAP-18. -/
theorem test_cap_largest_does_not_wrap :
    after (exec .cap { State.reset with width := 65535, height := 65535 }) (fun t => t.capacity == 1610563583) = true := by
  decide
/-- V-CAP-4 and V-EMB-17: the clamp gives 0, and CAPX is not sticky. -/
theorem test_cap_clamps_and_clears_capx :
    after (exec .cap { State.reset with width := 1, height := 1, status := 0x01#8, capacity := 7 })
      (fun t => t.capacity == 0 && t.status == 0x00#8) = true := by
  decide

/-- V-SER-4: the most significant bit comes first. -/
theorem test_ser_msb_first :
    after (exec .ser (carrier [] [0xFF#8, 0x01#8, 0x80#8])) (fun t => t.blen == 32 && t.bitSeq ==
      bits [1, 1, 1, 1, 1, 1, 1, 1, 0, 0, 0, 0, 0, 0, 0, 1, 1, 0, 0, 0, 0, 0, 0, 0, 0, 0, 0, 0, 0, 0, 0, 0]) = true := by
  decide
/-- V-SER-1: the empty message. -/
theorem test_ser_empty :
    after (exec .ser State.reset) (fun t => t.blen == 8 && t.bitSeq == bits [0, 0, 0, 0, 0, 0, 0, 0]) = true := by
  decide

/-- V-DES-9: zero bits that straddle two groups are no terminator. -/
theorem test_des_groups_are_aligned :
    after (exec .des (holding (bits [0, 0, 0, 1, 0, 0, 0, 0, 0, 0, 0, 0, 1, 0, 0, 0, 0, 0, 0, 0, 0, 0, 0, 0])))
      (fun t => t.recovered == [0x10#8, 0x08#8]) = true := by
  decide
/-- V-HOST-6: the terminator stops the decode before the cells that the raised length exposes. -/
theorem test_des_stops_before_free_cells :
    after (exec .des { holding (serialize [0x68#8, 0x69#8]) with blen := 32 })
      (fun t => t.molen == 2 && t.recovered == [0x68#8, 0x69#8]) = true := by
  decide

/-- V-EMB-1, P1: "hi" into the 2 x 4 buffer, an exact fit. -/
theorem test_emb_exact_fit :
    after (exec .emb (carrier b0 [0x68#8, 0x69#8]))
      (fun t => t.pixels == b1 && t.status == 0x00#8 && t.blen == 24) = true := by
  decide
/-- V-EMB-4: one character does not fit in 3 pixels; BS holds it all the same. -/
theorem test_emb_overfull :
    after (exec .emb (carrier (List.replicate 12 0xFF#8) [0x41#8]))
      (fun t => t.pixels == List.replicate 12 0xFF#8 && t.status == 0x01#8 &&
        t.bitSeq == bits [0, 1, 0, 0, 0, 0, 0, 1, 0, 0, 0, 0, 0, 0, 0, 0]) = true := by
  decide

/-- V-EXT-13: the order of the channels, the alpha byte skipped, the last bit left over. -/
theorem test_ext_order :
    after (exec .ext (carrier [0x01#8, 0x00#8, 0x00#8, 0x00#8, 0x00#8, 0x00#8, 0x00#8, 0xFF#8, 0x00#8, 0x00#8, 0xFF#8,
      0x00#8] [])) (fun t => t.bitSeq == bits [1, 0, 0, 0, 0, 0, 0, 0, 1] && t.recovered == [0x80#8]) = true := by
  decide
/-- V-EXT-2: "hi" comes back. -/
theorem test_ext_recovers :
    after (exec .ext (carrier b1 [])) (fun t => t.blen == 24 && t.recovered == [0x68#8, 0x69#8]) = true := by
  decide

/-! ## The host -/

/-- V-HOST-3 and V-HOST-4: a length above its maximum is refused. -/
theorem test_host_length_refused :
    after (serve { dimW := 16, npixMax := 100, msgMax := 36 } (.writeReg .npix 101) State.reset) (fun _ => true) = false ∧
      after (serve { dimW := 16, npixMax := 100, msgMax := 36 } (.writeReg .npix 100) State.reset)
        (fun t => t.npix == 100) = true := by
  decide
/-- V-HOST-2: a write to a cell of MO is refused. -/
theorem test_host_mo_refused :
    after (serve Config.params (.writeMo 0 0x41#8) State.reset) (fun _ => true) = false := by decide
/-- V-CMD-1: word 0 is no command, and no no-op either. -/
theorem test_step_refuses_word_zero :
    after (step (State.reset.withFetchWord 8 0)) (fun _ => true) = false := by
  decide
/-- V-RST-5: EMB as the first command after reset. -/
theorem test_step_emb_after_reset :
    after (step (State.reset.withFetchWord 8 0x04)) (fun t => t.status == 0x01#8 && t.blen == 8) = true := by
  decide
/-- R90, P3's message through the host sequences: DECODE gives back what ENCODE put in. -/
theorem test_sequences_refuse_oversized :
    (match encodeSequence Config.params 1 3 (List.replicate 12 0x00#8) [0x41#8] State.reset with
      | .next (.oversized, t) => t.capacity == 0 && t.status == 0x00#8
      | _ => false) = true := by
  decide

/-! ## Witnesses: each statement's hypotheses are met together, clause by clause, at the edges of their ranges -/

/-- A small instance. -/
def small : Params := { dimW := 4, npixMax := 8, msgMax := 2 }

/-- B0 with "hi" to embed: the exact fit of P1. -/
def hi : State := carrier b0 [0x68#8, 0x69#8]

/-- An instance of an event that is about to be served. -/
def pending (e : HostEvent) : State := State.reset.setInbox [e]

theorem witness_CommandWordsAreTheTable : decode (encode .ext) = .ok .ext := by decide

theorem witness_ReservedWordsAreRefused :
    (∀ w ∈ [0x00#8, 0x06#8, 0x07#8], reservedField w = 0#5 ∧ (opField w = 0#3 ∨ opField w = 6#3 ∨ opField w = 7#3) ∧
      (pending (.writeReg .cmd w.toNat)).inbox = [.writeReg .cmd w.toNat]) ∧
    ∀ w ∈ [0x08#8, 0x09#8, 0xFF#8], reservedField w ≠ 0#5 ∧
      (pending (.writeReg .cmd w.toNat)).inbox = [.writeReg .cmd w.toNat] := by decide

theorem witness_DecodeAndEncodeAgree :
    (∀ i ∈ [Instr.cap, .ser, .des, .emb, .ext], i.wf = true) ∧ decode 0x05#8 = .ok .ext := by decide

theorem witness_StepPerformsTheCommandWritten :
    (∀ i ∈ [Instr.cap, .ser, .des, .emb, .ext], decode (encode i) = .ok i ∧
      (pending (.writeReg .cmd (encode i).toNat)).inbox = [.writeReg .cmd (encode i).toNat]) ∧
    decode 0x00#8 = .error (.reservedOp 0x00#8) := by decide

theorem witness_PlacedWordRunsNext : (pending (.writePb 31 0xFF#8)).inbox = .writePb 31 0xFF#8 :: [] ∧
    decodeTableWord 8 0x01 = some .cap ∧ decodeTableWord 8 0x05 = some .ext ∧ State.reset.inbox = [] := by decide

theorem witness_CapWritesCapacity :
    (carrier [] []).width * (carrier [] []).height ≤ 5 ∧
    (65535 : Nat) < 2 ^ Config.params.dimW ∧ 8 ≤ 1 * 3 * 3 ∧ ¬ 8 ≤ 1 * 2 * 3 := by decide

theorem witness_CapacityClosedFormAndRange : 8 ≤ 1 * 3 * 3 ∧ 1 * 2 * 3 < 8 ∧ 1 * 5 ≤ 5 ∧ 2 * 3 = 6 ∧
    2 ^ small.dimW - 1 < 2 ^ small.dimW ∧ 1 * 6 = 2 * 3 ∧ 1 * 6 ≤ 3 * 3 := by decide

theorem witness_CapacityAndEmbCheckAgree :
    (2 * 4 = hi.npix ∧ 3 ≤ hi.npix ∧ hi.milen = capacity 2 4) ∧
    (let s := carrier (List.replicate 12 0xFF#8) []; 1 * 3 = s.npix ∧ 3 ≤ s.npix ∧ s.milen = capacity 1 3) ∧
    (let s := carrier b0 [0x68#8, 0x69#8, 0x21#8]; 2 * 4 = s.npix ∧ s.milen = capacity 2 4 + 1) ∧
    (let s := carrier [] [0x41#8]; 0 * 0 = s.npix ∧ s.milen = capacity 0 0 + 1) ∧
    (let s := carrier (List.replicate 8 0xFF#8) []; 1 * 2 = s.npix ∧ s.npix ≤ 2) := by decide

theorem witness_SerWritesSerializedMessage :
    hi.message = [0x68#8, 0x69#8] ∧ hi.milen ≤ small.msgMax ∧ 1 < hi.milen ∧ State.reset.milen = 0 := by decide

theorem witness_DesReadsGroupsUpToTerminator :
    (holding (bits [0, 1, 1, 0, 1, 0, 0, 0, 0, 1, 1, 0, 1, 0, 0, 1, 0, 0, 0, 0, 0, 0, 0, 0])).bitSeq =
      bits [0, 1, 1, 0, 1, 0, 0, 0, 0, 1, 1, 0, 1, 0, 0, 1, 0, 0, 0, 0, 0, 0, 0, 0] ∧
    24 ≤ small.bsMax ∧ State.reset.blen = 0 := by decide

theorem witness_DeserializeCornerCases :
    (bits [1, 1, 1, 1, 1, 1, 1]).length < 8 ∧
    (let B := bits [1, 1, 1, 1, 1, 1, 1, 1, 1, 1]; ∀ j < B.length / 8, group B j ≠ List.replicate 8 false) ∧
    (let B := serialize [0x41#8]; 1 < B.length / 8 ∧ group B 1 = List.replicate 8 false) ∧
    (let B := bits [1, 0, 0, 0, 0, 0, 0, 0, 1]; let B' := bits [1, 0, 0, 0, 0, 0, 0, 0];
      B.length / 8 = B'.length / 8 ∧ ∀ j < B.length / 8, group B j = group B' j) := by decide

theorem witness_SerializeLengthAndInjective : serialize [0x41#8] = serialize [0x41#8] := by decide

theorem witness_RecoveredCharactersAreNonzero :
    0x68#8 ∈ extract b1 ∧ 0x41#8 ∈ deserialize (serialize [0x41#8]) ∧
    after (exec .ext (carrier b1 [])) (fun t => decide (1 < t.molen)) = true ∧
    after (exec .des (holding (serialize [0x41#8]))) (fun t => decide (0 < t.molen)) = true := by decide

theorem witness_EmbWritesMessageBits :
    8 * (hi.milen + 1) ≤ 3 * hi.npix ∧ 23 < 8 * (hi.milen + 1) ∧ ∀ k < 8 * (hi.milen + 1), 3 ≠ 4 * (k / 3) + k % 3 := by
  decide

theorem witness_EmbOverfullRaisesAndKeepsPixels :
    8 * (State.reset.milen + 1) > 3 * State.reset.npix ∧
    (let s := carrier b0 [0x68#8, 0x69#8, 0x21#8]; 8 * (s.milen + 1) > 3 * s.npix) := by decide

theorem witness_CapacityExceededOnlyFromEmb :
    after (exec .emb State.reset) (fun t => t.capx) = true ∧ after (exec .emb hi) (fun t => !t.capx) = true ∧
    ∀ i ∈ [Instr.cap, .ser, .des, .ext], after (exec i hi) (fun t => !t.capx) = true := by decide

theorem witness_EmbRefinesEmbed :
    embed b0 [0x68#8, 0x69#8] = some b1 ∧ embed b0 [0x68#8, 0x69#8, 0x21#8] = none ∧
    after (exec .emb hi) (fun _ => true) = true := by decide

theorem witness_EmbKeepsAlphaAndCover :
    after (exec .emb hi) (fun _ => true) = true ∧ 31 % 4 = 3 ∧ 31 > usable (8 * (hi.milen + 1) - 1) ∧
    32 ≥ 4 * hi.npix := by decide

theorem witness_EmbIsIdempotent : 8 * (hi.milen + 1) ≤ 3 * hi.npix := by decide

/-- V-EMB-15: B0 with bit 0 of every usable byte flipped. -/
theorem witness_EmbIgnoresOldLsbs :
    let s' := carrier ((List.range 32).map fun i => if isAlpha i then hi.readPb i else hi.readPb i ^^^ 0x01#8)
      [0x68#8, 0x69#8]
    s'.npix = hi.npix ∧ s'.milen = hi.milen ∧ (∀ j < hi.milen, s'.readMi j = hi.readMi j) ∧
    8 * (hi.milen + 1) ≤ 3 * hi.npix ∧
    (∀ i < usable (8 * (hi.milen + 1) - 1) + 1, i % 4 ≠ 3 → s'.readPb i &&& 0xFE#8 = hi.readPb i &&& 0xFE#8) ∧
    (∀ i < usable (8 * (hi.milen + 1) - 1) + 1, i % 4 = 3 → s'.readPb i = hi.readPb i) ∧
    (∀ i ≥ usable (8 * (hi.milen + 1) - 1) + 1, s'.readPb i = hi.readPb i) := by
  refine ⟨by decide, by decide, by decide, by decide, by decide, by decide, fun i h => ?_⟩
  have h : 31 ≤ i := h
  rcases Nat.eq_or_lt_of_le h with rfl | h
  · decide
  · simp only [State.readPb, Memory.read, hi, carrier, mem, Memory.lookup_cellsFrom]
    rw [if_pos (Nat.zero_le _), if_pos (Nat.zero_le _), List.getElem?_eq_none (by simp; omega),
      List.getElem?_eq_none (by simp [b0]; omega)]

theorem witness_ExtReadsWholeBuffer : 23 < 3 * hi.npix ∧
    after (exec .ext (carrier b1 [])) (fun t => decide (1 < t.molen)) = true := by decide

theorem witness_ExtDependsOnLsbsOnly :
    let s := carrier b1 []
    let s' := carrier (b1.map fun v => v ^^^ 0xFE#8) []
    s'.npix = s.npix ∧ ∀ k < 3 * s.npix, lsb (s'.readPb (usable k)) = lsb (s.readPb (usable k)) := by decide

theorem witness_RecoveredMessageLength :
    2 * 4 = hi.npix ∧ 8 ≤ 3 * hi.npix ∧ 8 * (hi.milen + 1) ≤ 3 * hi.npix ∧
    after (exec .emb hi) (fun t => after (exec .ext t) fun u => u.molen == 2) = true ∧
    after (exec .ext (carrier (List.replicate 12 0xFF#8) [])) (fun t => t.molen == 3 * 3 / 8) = true := by decide

theorem witness_EmbThenExtRoundTrip : 8 * (hi.milen + 1) ≤ 3 * hi.npix ∧ ∀ c ∈ hi.message, c ≠ 0x00#8 := by decide

theorem witness_LastEmbeddedMessageWins :
    b0.length % 4 = 0 ∧ 8 * ([0x68#8, 0x69#8].length + 1) ≤ 3 * (b0.length / 4) ∧
    8 * (([] : List Byte).length + 1) ≤ 3 * (b0.length / 4) := by decide

theorem witness_EmptyMessageRoundTrip :
    (let s := carrier (List.replicate 12 0xFF#8) []; s.milen = 0 ∧ 3 ≤ s.npix) ∧
    (let s := carrier (List.replicate 8 0xFF#8) []; s.milen = 0 ∧ s.npix ≤ 2) ∧
    State.reset.milen = 0 ∧ State.reset.npix ≤ 2 := by decide

/-- Two states that agree on what every command reads and differ in the rest; and two that differ in a byte that EMB
does not read. -/
theorem witness_CommandsReadOnlyTheirOperands :
    let s' : State := { hi with status := 0x01#8, capacity := 9, molen := 1, mo := mem [0x41#8] }
    s'.width = hi.width ∧ s'.height = hi.height ∧ s'.milen = hi.milen ∧ (∀ j < hi.milen, s'.readMi j = hi.readMi j) ∧
    s'.blen = hi.blen ∧ (∀ k < hi.blen, s'.readBs k = hi.readBs k) ∧ s'.npix = hi.npix ∧
    (∀ i < 4 * hi.npix, i % 4 ≠ 3 → s'.readPb i = hi.readPb i) ∧ s' ≠ hi ∧
    (let s := carrier b0 [0x68#8]; let s' := s.storePixel (usable 16) 0x00#8
      s'.milen = s.milen ∧ (∀ j < s.milen, s'.readMi j = s.readMi j) ∧ s'.npix = s.npix ∧
      15 < 8 * (s.milen + 1) ∧ s'.readPb (usable 15) = s.readPb (usable 15) ∧
      s'.readPb (usable 16) ≠ s.readPb (usable 16)) := by decide

theorem witness_UsableBytesEnumerated : 0 < 1 ∧ (2 < 3) := by decide

theorem witness_HostWritesOneRegister :
    ∀ x ∈ [(Reg.width, 15), (.height, 0), (.npix, 8), (.milen, 2), (.blen, 24)],
      x.1 ≠ .cmd ∧ x.1.readOnly = false ∧ x.2 < x.1.bound small := by decide

theorem witness_RefusedHostWritesAndReachableBounds :
    small.npixMax < 9 ∧ small.msgMax < 3 ∧ small.bsMax < 25 ∧
    after (runFor small 2 (State.reset.setInbox [.writeReg .npix 8, .writeReg .cmd 5])) (fun t => t.npix == 8) = true := by
  decide

theorem witness_HostWritesOneCell : 31 < 4 * small.npixMax ∧ 1 < small.msgMax ∧ 23 < small.bsMax := by decide

theorem witness_HostReadsAnswerAndChangeNothing :
    31 < 4 * small.npixMax ∧ 1 < small.msgMax ∧ 2 < small.moMax ∧ 23 < small.bsMax := by decide

theorem witness_AbsentCellsRefused :
    4 * small.npixMax ≤ 32 ∧ small.msgMax ≤ 2 ∧ small.moMax ≤ 3 ∧ small.bsMax ≤ 24 := by decide

theorem witness_ResetZeroesRegistersAndEmptiesBuffers : ∀ r : Reg, State.reset.readReg r = 0 := by
  intro r
  cases r <;> decide

theorem witness_CellsBeyondLengthAreFree :
    (∀ i ∈ [Instr.ser, .emb, .ext], after (exec i hi) (fun t => decide (t.blen ≤ 24)) = true) ∧
    (∀ i ∈ [Instr.des, .ext], after (exec i hi) (fun t => decide (t.molen ≤ 3)) = true) ∧
    after (serve small .reset hi) (fun _ => true) = true := by decide

theorem witness_OnlyTheseEventsChangeEachPart :
    after (serve small (.writeReg .npix 8) State.reset) (fun t => t.npix != State.reset.npix) = true ∧
    after (serve small (.writeReg .cmd 4) hi) (fun t => t.readPb 2 != hi.readPb 2 && t.blen != hi.blen) = true ∧
    after (serve small (.writeReg .cmd 4) State.reset) (fun t => t.status != State.reset.status) = true ∧
    after (serve small (.writeReg .cmd 5) hi) (fun t => t.molen != hi.molen) = true ∧
    after (serve small (.writeReg .cmd 1) { hi with width := 3, height := 3 }) (fun t => t.capacity != hi.capacity) = true := by
  decide

/-- For each kind of event its last allowed instance, and the first one that is not. -/
theorem witness_AllowedEventsAndOnlyTheyStep :
    (∀ e ∈ [HostEvent.writeReg .cmd 5, .writeReg .width 15, .writeReg .npix 8, .writeReg .milen 2, .writeReg .blen 24,
        .readReg .cmd, .writePb 31 0xFF#8, .writeMi 1 0xFF#8, .writeBs 23 true, .readPb 31, .readMi 1, .readMo 2,
        .readBs 23, .reset],
      (pending e).inbox = [e] ∧ e.allowed small = true) ∧
    ∀ e ∈ [HostEvent.writeReg .cmd 6, .writeReg .cmd 256, .writeReg .width 16, .writeReg .npix 9, .writeReg .milen 3,
        .writeReg .blen 25, .writeReg .status 0, .writePb 32 0xFF#8, .writeMi 2 0xFF#8, .writeMo 0 0xFF#8,
        .writeBs 24 true, .readPb 32, .readMi 2, .readMo 3, .readBs 24],
      (pending e).inbox = [e] ∧ e.allowed small = false := by decide

theorem witness_StepKeepsStateLegal :
    State.reset.Legal Config.params ∧ after (step (State.reset.withFetchWord 8 0x02)) (fun t => t.blen == 8) = true :=
  ⟨{ status := .inl rfl
     width := by decide
     height := by decide
     capacity := by decide
     npix := by decide
     milen := by decide
     molen := by decide
     blen := by decide
     pb := ⟨by decide, by decide⟩
     mi := ⟨by decide, by decide⟩
     mo := ⟨by decide, by decide⟩
     bs := ⟨by decide, by decide⟩
     recovered := by decide }, by decide⟩

theorem witness_RaisedRecordMatchesStatus :
    (pending (.writeReg .cmd 4)).nextCommand = some .emb ∧
    after (stepFor small (pending (.writeReg .cmd 4))) (fun t => t.capx) = true ∧
    raisedWithin small 1 (pending (.writeReg .cmd 4)) = true := by decide

end Sys2Proof.Tests
end

/-! # The state's operations: what each leaves unchanged, and what a command or a host event can do -/

section

namespace Sys2Proof.Machine

/-! ## Embedding keeps everything but PB -/

namespace State

variable (s : State) (B : List Bit) (k : Nat)

@[simp] theorem embedBits_status : (embedBits B k s).status = s.status := of_embedBits status (fun _ _ => rfl) B k s
@[simp] theorem embedBits_width : (embedBits B k s).width = s.width := of_embedBits width (fun _ _ => rfl) B k s
@[simp] theorem embedBits_height : (embedBits B k s).height = s.height := of_embedBits height (fun _ _ => rfl) B k s
@[simp] theorem embedBits_capacity : (embedBits B k s).capacity = s.capacity :=
  of_embedBits State.capacity (fun _ _ => rfl) B k s
@[simp] theorem embedBits_npix : (embedBits B k s).npix = s.npix := of_embedBits npix (fun _ _ => rfl) B k s
@[simp] theorem embedBits_milen : (embedBits B k s).milen = s.milen := of_embedBits milen (fun _ _ => rfl) B k s
@[simp] theorem embedBits_molen : (embedBits B k s).molen = s.molen := of_embedBits molen (fun _ _ => rfl) B k s
@[simp] theorem embedBits_blen : (embedBits B k s).blen = s.blen := of_embedBits blen (fun _ _ => rfl) B k s
@[simp] theorem embedBits_mi : (embedBits B k s).mi = s.mi := of_embedBits mi (fun _ _ => rfl) B k s
@[simp] theorem embedBits_mo : (embedBits B k s).mo = s.mo := of_embedBits mo (fun _ _ => rfl) B k s
@[simp] theorem embedBits_bs : (embedBits B k s).bs = s.bs := of_embedBits bs (fun _ _ => rfl) B k s
@[simp] theorem embedBits_inbox : (embedBits B k s).inbox = s.inbox := of_embedBits inbox (fun _ _ => rfl) B k s
@[simp] theorem embedBits_reply : (embedBits B k s).reply = s.reply := of_embedBits reply (fun _ _ => rfl) B k s
@[simp] theorem readMi_embedBits (j : Nat) : (embedBits B k s).readMi j = s.readMi j :=
  of_embedBits (fun t => t.readMi j) (fun _ _ => rfl) B k s
@[simp] theorem readMo_embedBits (j : Nat) : (embedBits B k s).readMo j = s.readMo j :=
  of_embedBits (fun t => t.readMo j) (fun _ _ => rfl) B k s
@[simp] theorem readBs_embedBits (j : Nat) : (embedBits B k s).readBs j = s.readBs j :=
  of_embedBits (fun t => t.readBs j) (fun _ _ => rfl) B k s

end State

/-! ## Host writes to a register -/

namespace State

variable (s : State) (r : Reg) (v : Nat)

@[simp] theorem setReg_status : (s.setReg r v).status = s.status := by cases r <;> rfl
@[simp] theorem setReg_capacity : (s.setReg r v).capacity = s.capacity := by cases r <;> rfl
@[simp] theorem setReg_molen : (s.setReg r v).molen = s.molen := by cases r <;> rfl
@[simp] theorem setReg_pb : (s.setReg r v).pb = s.pb := by cases r <;> rfl
@[simp] theorem setReg_mi : (s.setReg r v).mi = s.mi := by cases r <;> rfl
@[simp] theorem setReg_mo : (s.setReg r v).mo = s.mo := by cases r <;> rfl
@[simp] theorem setReg_bs : (s.setReg r v).bs = s.bs := by cases r <;> rfl
@[simp] theorem setReg_inbox : (s.setReg r v).inbox = s.inbox := by cases r <;> rfl
@[simp] theorem setReg_reply : (s.setReg r v).reply = s.reply := by cases r <;> rfl
@[simp] theorem readPb_setReg (i : Nat) : (s.setReg r v).readPb i = s.readPb i := by simp [readPb]
@[simp] theorem readMi_setReg (j : Nat) : (s.setReg r v).readMi j = s.readMi j := by simp [readMi]
@[simp] theorem readMo_setReg (j : Nat) : (s.setReg r v).readMo j = s.readMo j := by simp [readMo]
@[simp] theorem readBs_setReg (k : Nat) : (s.setReg r v).readBs k = s.readBs k := by simp [readBs]

variable {s r v}

theorem readReg_setReg_same (hc : r ≠ .cmd) (hro : r.readOnly = false) : (s.setReg r v).readReg r = v := by
  cases r <;> simp_all [setReg, readReg, Reg.readOnly]

theorem readReg_setReg_other {q : Reg} (h : q ≠ r) : (s.setReg r v).readReg q = s.readReg q := by
  cases r <;> cases q <;> simp_all [setReg, readReg]

end State

/-! ## Reads after a host access to a cell -/

namespace State

variable (s : State)

@[simp] theorem readReg_storePixel (i : Nat) (v : Byte) (r : Reg) : (s.storePixel i v).readReg r = s.readReg r := by
  cases r <;> rfl
@[simp] theorem readReg_storeMi (j : Nat) (c : Byte) (r : Reg) : (s.storeMi j c).readReg r = s.readReg r := by
  cases r <;> rfl
@[simp] theorem readReg_storeBs (k : Nat) (b : Bit) (r : Reg) : (s.storeBs k b).readReg r = s.readReg r := by
  cases r <;> rfl
@[simp] theorem readReg_answer (v : Nat) (r : Reg) : (s.answer v).readReg r = s.readReg r := by
  cases r <;> rfl

@[simp] theorem readMi_storePixel (i : Nat) (v : Byte) (n : Nat) : (s.storePixel i v).readMi n = s.readMi n := rfl
@[simp] theorem readMo_storePixel (i : Nat) (v : Byte) (n : Nat) : (s.storePixel i v).readMo n = s.readMo n := rfl
@[simp] theorem readBs_storePixel (i : Nat) (v : Byte) (n : Nat) : (s.storePixel i v).readBs n = s.readBs n := rfl
@[simp] theorem readPb_storeMi (j : Nat) (c : Byte) (n : Nat) : (s.storeMi j c).readPb n = s.readPb n := rfl
@[simp] theorem readMo_storeMi (j : Nat) (c : Byte) (n : Nat) : (s.storeMi j c).readMo n = s.readMo n := rfl
@[simp] theorem readBs_storeMi (j : Nat) (c : Byte) (n : Nat) : (s.storeMi j c).readBs n = s.readBs n := rfl
@[simp] theorem readPb_storeBs (k : Nat) (b : Bit) (n : Nat) : (s.storeBs k b).readPb n = s.readPb n := rfl
@[simp] theorem readMi_storeBs (k : Nat) (b : Bit) (n : Nat) : (s.storeBs k b).readMi n = s.readMi n := rfl
@[simp] theorem readMo_storeBs (k : Nat) (b : Bit) (n : Nat) : (s.storeBs k b).readMo n = s.readMo n := rfl
@[simp] theorem readPb_answer (v : Nat) (n : Nat) : (s.answer v).readPb n = s.readPb n := rfl
@[simp] theorem readMi_answer (v : Nat) (n : Nat) : (s.answer v).readMi n = s.readMi n := rfl
@[simp] theorem readMo_answer (v : Nat) (n : Nat) : (s.answer v).readMo n = s.readMo n := rfl
@[simp] theorem readBs_answer (v : Nat) (n : Nat) : (s.answer v).readBs n = s.readBs n := rfl

theorem readMi_storeMi_same (j : Nat) (c : Byte) : (s.storeMi j c).readMi j = c := by
  simp [readMi]
theorem readMi_storeMi_other {i j : Nat} (c : Byte) (h : j ≠ i) : (s.storeMi i c).readMi j = s.readMi j := by
  simp [readMi, Memory.read_write_other _ _ c h]
theorem readBs_storeBs_same (k : Nat) (b : Bit) : (s.storeBs k b).readBs k = b := by
  simp [readBs]
theorem readBs_storeBs_other {k l : Nat} (b : Bit) (h : l ≠ k) : (s.storeBs k b).readBs l = s.readBs l := by
  simp [readBs, Memory.read_write_other _ _ b h]

end State

/-! ## What a command can do -/

/-- EMB in both outcomes. -/
theorem exec_emb_next {s t : State} (h : exec .emb s = .next t) :
    (8 * (s.milen + 1) ≤ 3 * s.npix ∧
      t = (State.embedBits (serialize s.message) 0 (s.storeBits (serialize s.message))).setStatus 0x00#8) ∨
    (3 * s.npix < 8 * (s.milen + 1) ∧ t = (s.storeBits (serialize s.message)).setStatus 0x01#8) := by
  rcases Nat.lt_or_ge (3 * s.npix) (8 * (s.milen + 1)) with hover | hfits
  · rw [exec_emb_overfull hover] at h
    cases h
    exact .inr ⟨hover, rfl⟩
  · rw [exec_emb_ok hfits] at h
    cases h
    exact .inl ⟨hfits, rfl⟩

/-- Every command answers a next state. -/
theorem exec_total (i : Instr) (s : State) : ∃ t, exec i s = .next t := by
  cases i with
  | cap => exact ⟨_, exec_cap s⟩
  | ser => exact ⟨_, exec_ser s⟩
  | des => exact ⟨_, exec_des s⟩
  | emb =>
    rcases Nat.lt_or_ge (3 * s.npix) (8 * (s.milen + 1)) with hover | hfits
    · exact ⟨_, exec_emb_overfull hover⟩
    · exact ⟨_, exec_emb_ok hfits⟩
  | ext => exact ⟨_, exec_ext s⟩

/-- The legal words are the five command words (R82). -/
theorem exists_encode_of_wordWf {w : Byte} (h : wordWf w = true) : ∃ i, w = encode i := by
  have key : ∀ w : Byte, wordWf w = true → w ∈ [Instr.cap, .ser, .des, .emb, .ext].map encode := by decide
  obtain ⟨i, -, hi⟩ := List.mem_map.1 (key w h)
  exact ⟨i, hi.symm⟩

theorem wordWf_encode : ∀ i : Instr, wordWf (encode i) = true
  | .cap => Laws.LegalWord.cap.1
  | .ser => Laws.LegalWord.ser.1
  | .des => Laws.LegalWord.des.1
  | .emb => Laws.LegalWord.emb.1
  | .ext => Laws.LegalWord.ext.1

theorem decode_encode (i : Instr) : decode (encode i) = .ok i := by
  cases i <;> decide

/-! ## What an event of the host can do -/

/-- `Served p s e t`: event `e`, served in state `s`, is one of those that the host port answers, and leaves `t`. -/
inductive Served (p : Params) (s : State) : HostEvent → State → Prop
  | command {i : Instr} {t : State} (hi : exec i s = .next t) : Served p s (.writeReg .cmd (encode i).toNat) t
  | register {r : Reg} {v : Nat} (hc : r ≠ .cmd) (hro : r.readOnly = false) (hv : v < r.bound p) :
      Served p s (.writeReg r v) (s.setReg r v)
  | writePb {i : Nat} {v : Byte} (hi : i < cellCount p .pb) : Served p s (.writePb i v) (s.storePixel i v)
  | writeMi {j : Nat} {c : Byte} (hj : j < cellCount p .mi) : Served p s (.writeMi j c) (s.storeMi j c)
  | writeBs {k : Nat} {b : Bit} (hk : k < cellCount p .bs) : Served p s (.writeBs k b) (s.storeBs k b)
  | readReg {r : Reg} : Served p s (.readReg r) (s.answer (s.readReg r))
  | readPb {i : Nat} (hi : i < cellCount p .pb) : Served p s (.readPb i) (s.answer (s.readPb i).toNat)
  | readMi {j : Nat} (hj : j < cellCount p .mi) : Served p s (.readMi j) (s.answer (s.readMi j).toNat)
  | readMo {j : Nat} (hj : j < cellCount p .mo) : Served p s (.readMo j) (s.answer (s.readMo j).toNat)
  | readBs {k : Nat} (hk : k < cellCount p .bs) : Served p s (.readBs k) (s.answer (s.readBs k).toNat)
  | reset : Served p s .reset s.afterReset

theorem served_of_serve {p : Params} {e : HostEvent} {s t : State} (h : serve p e s = .next t) : Served p s e t := by
  cases e with
  | writeReg r v =>
    rcases hostWriteReg_next h with ⟨rfl, i, rfl, hi⟩ | ⟨hc, hro, hv, rfl⟩
    · exact .command hi
    · exact .register hc hro hv
  | readReg r => cases h; exact .readReg
  | writePb i v => obtain ⟨hi, rfl⟩ := withCell_next h; exact .writePb hi
  | writeMi j c => obtain ⟨hj, rfl⟩ := withCell_next h; exact .writeMi hj
  | writeMo j c => cases h
  | writeBs k b => obtain ⟨hk, rfl⟩ := withCell_next h; exact .writeBs hk
  | readPb i => obtain ⟨hi, rfl⟩ := withCell_next h; exact .readPb hi
  | readMi j => obtain ⟨hj, rfl⟩ := withCell_next h; exact .readMi hj
  | readMo j => obtain ⟨hj, rfl⟩ := withCell_next h; exact .readMo hj
  | readBs k => obtain ⟨hk, rfl⟩ := withCell_next h; exact .readBs hk
  | reset => cases h; exact .reset

/-- A host write of a word to CMD issues that word. -/
theorem serve_writeCmd (p : Params) (w : Byte) (s : State) : serve p (.writeReg .cmd w.toNat) s = issue w s := by
  have hw : w.toNat < Reg.cmd.bound p := w.isLt
  simp [serve, hostWriteReg, Reg.readOnly, hw]

theorem issue_of_decode {w : Byte} {i : Instr} (h : decode w = .ok i) (s : State) : issue w s = exec i s := by
  simp only [issue, h]

theorem hostWriteReg_of_lt {p : Params} {r : Reg} {v : Nat} (hc : r ≠ .cmd) (hro : r.readOnly = false)
    (hv : v < r.bound p) (s : State) : hostWriteReg p r v s = .next (s.setReg r v) := by
  simp [hostWriteReg, hc, hro, hv]

theorem hostWriteReg_out_of_range {p : Params} {r : Reg} {v : Nat} (hro : r.readOnly = false) (hv : r.bound p ≤ v)
    (s : State) : hostWriteReg p r v s = .refused (.valueOutOfRange r v) := by
  simp [hostWriteReg, hro, Nat.not_lt_of_le hv]

theorem withCell_of_lt {p : Params} {sp : Space} {i : Nat} (h : i < cellCount p sp) (t : State) :
    withCell p sp i t = .next t := if_pos h

/-- The events that the host port answers, and what they leave. -/
theorem serve_eq_next_iff {p : Params} {e : HostEvent} {s t : State} : serve p e s = .next t ↔ Served p s e t := by
  refine ⟨served_of_serve, fun h => ?_⟩
  cases h with
  | command hi => rw [serve_writeCmd, issue_of_decode (decode_encode _), hi]
  | register hc hro hv => exact hostWriteReg_of_lt hc hro hv s
  | writePb h | writeMi h | writeBs h | readPb h | readMi h | readMo h | readBs h => exact withCell_of_lt h _
  | readReg | reset => rfl

end Sys2Proof.Machine

end

/-! # The invariant `State.Legal`: every operation, every command and every step keeps it -/

section

namespace Sys2Proof.Machine

/-! ## The sizes that commands write -/

/-- CAPACITY fits its register (R6, R17). -/
theorem capacity_lt_of_lt_two_pow {w h d : Nat} (hw : w < 2 ^ d) (hh : h < 2 ^ d) : capacity w h < 2 ^ (2 * d) := by
  have hmul : w * h < 2 ^ (2 * d) := by
    rw [Nat.two_mul, Nat.pow_add]
    exact Nat.mul_lt_mul'' hw hh
  simp only [capacity]
  omega

theorem serialize_length_le_bsMax {p : Params} {M : List Byte} (h : M.length ≤ p.msgMax) :
    (serialize M).length ≤ p.bsMax := by
  rw [serialize_length, Params.bsMax]
  omega

theorem deserialize_length_le_moMax {p : Params} {B : List Bit} (h : B.length ≤ p.bsMax) :
    (deserialize B).length ≤ p.moMax :=
  Nat.le_trans (deserialize_length_le B) (Nat.div_le_div_right h)

/-! ## Each operation keeps the state legal -/

namespace State.Legal

variable {p : Params} {s : State}

theorem setStatus (h : s.Legal p) (o : CommandOutcome) : (s.setStatus (statusWord o)).Legal p :=
  { h with status := by cases o <;> simp [statusWord] }

theorem storeCapacity (h : s.Legal p) {v : Nat} (hv : v < 2 ^ p.capW) : (s.storeCapacity v).Legal p :=
  { h with capacity := hv }

theorem storeBits (h : s.Legal p) {B : List Bit} (hB : B.length ≤ p.bsMax) : (s.storeBits B).Legal p :=
  { h with blen := hB, bs := ⟨Memory.wf_refill _ _, Memory.within_refill _ hB⟩ }

theorem storeMessage (h : s.Legal p) {B : List Bit} (hB : B.length ≤ p.bsMax) :
    (s.storeMessage (deserialize B)).Legal p :=
  have hM := deserialize_length_le_moMax hB
  { h with
    molen := hM
    mo := ⟨Memory.wf_refill _ _, Memory.within_refill _ hM⟩
    recovered := fun j hj => by
      rw [readMo_storeMessage s (deserialize B) hj]
      exact ne_zero_of_mem_deserialize (List.getElem_mem hj) }

theorem embedBits (h : s.Legal p) {B : List Bit} (hB : B.length ≤ 3 * s.npix) : (State.embedBits B 0 s).Legal p := by
  have hwithin : (State.embedBits B 0 s).pb.within (cellCount p .pb) :=
    within_embedBits B 0 p.npixMax (by have := h.npix; omega) h.pb.2
  have hwf := wf_embedBits B 0 h.pb.1
  rw [embedBits_frame]
  exact { h with pb := ⟨hwf, hwithin⟩ }

theorem setReg (h : s.Legal p) {r : Reg} {v : Nat} (hv : v < r.bound p) : (s.setReg r v).Legal p := by
  cases r with
  | width => exact { h with width := hv }
  | height => exact { h with height := hv }
  | npix => exact { h with npix := Nat.le_of_lt_succ hv }
  | milen => exact { h with milen := Nat.le_of_lt_succ hv }
  | blen => exact { h with blen := Nat.le_of_lt_succ hv }
  | cmd | status | capacity | molen => exact h

theorem storePixel (h : s.Legal p) {i : Nat} (hi : i < cellCount p .pb) (v : Byte) : (s.storePixel i v).Legal p :=
  { h with pb := ⟨Memory.wf_write i v h.pb.1, Memory.within_write v hi h.pb.2⟩ }

theorem storeMi (h : s.Legal p) {j : Nat} (hj : j < cellCount p .mi) (c : Byte) : (s.storeMi j c).Legal p :=
  { h with mi := ⟨Memory.wf_write j c h.mi.1, Memory.within_write c hj h.mi.2⟩ }

theorem storeBs (h : s.Legal p) {k : Nat} (hk : k < cellCount p .bs) (b : Bit) : (s.storeBs k b).Legal p :=
  { h with bs := ⟨Memory.wf_write k b h.bs.1, Memory.within_write b hk h.bs.2⟩ }

theorem answer (h : s.Legal p) (v : Nat) : (s.answer v).Legal p := { h with }

theorem setInbox (h : s.Legal p) (evs : List HostEvent) : (s.setInbox evs).Legal p := { h with }

end State.Legal

/-! ## The state after a reset -/

theorem Memory.wf_within_of_cells_nil {α : Type} {m : Memory α} (h : m.cells = []) (n : Nat) : m.wf ∧ m.within n := by
  simp [Memory.wf, h]

namespace State

@[simp] theorem readReg_reset (r : Reg) : reset.readReg r = 0 := by cases r <;> rfl

@[simp] theorem readReg_afterReset (s : State) (r : Reg) : s.afterReset.readReg r = 0 := by cases r <;> rfl

theorem status_of_readReg_zero {s : State} (hr : ∀ r, s.readReg r = 0) : s.status = 0x00#8 :=
  BitVec.eq_of_toNat_eq (hr .status)

/-- A state whose registers are 0 and whose buffers list no cell is legal. -/
theorem legal_of_empty (p : Params) {s : State} (hr : ∀ r, s.readReg r = 0) (hpb : s.pb.cells = [])
    (hmi : s.mi.cells = []) (hmo : s.mo.cells = []) (hbs : s.bs.cells = []) : s.Legal p where
  status := .inl (status_of_readReg_zero hr)
  width := (hr .width).trans_lt (Nat.two_pow_pos _)
  height := (hr .height).trans_lt (Nat.two_pow_pos _)
  capacity := (hr .capacity).trans_lt (Nat.two_pow_pos _)
  npix := (hr .npix).trans_le (Nat.zero_le _)
  milen := (hr .milen).trans_le (Nat.zero_le _)
  molen := (hr .molen).trans_le (Nat.zero_le _)
  blen := (hr .blen).trans_le (Nat.zero_le _)
  pb := Memory.wf_within_of_cells_nil hpb _
  mi := Memory.wf_within_of_cells_nil hmi _
  mo := Memory.wf_within_of_cells_nil hmo _
  bs := Memory.wf_within_of_cells_nil hbs _
  recovered := fun j hj => absurd (hj.trans_eq (hr .molen)) (Nat.not_lt_zero j)

theorem legal_reset (p : Params) : reset.Legal p := legal_of_empty p readReg_reset rfl rfl rfl rfl

theorem legal_afterReset (p : Params) (s : State) : s.afterReset.Legal p :=
  legal_of_empty p s.readReg_afterReset rfl rfl rfl rfl

end State

/-! ## Commands, events and steps -/

theorem exec_keeps_legal {p : Params} {i : Instr} {s t : State} (hs : s.Legal p) (h : exec i s = .next t) :
    t.Legal p := by
  have hser : (serialize s.message).length ≤ p.bsMax := serialize_length_le_bsMax (by simpa using hs.milen)
  cases i with
  | cap =>
    cases h
    exact (hs.storeCapacity (capacity_lt_of_lt_two_pow hs.width hs.height)).setStatus .ok
  | ser =>
    cases h
    exact (hs.storeBits hser).setStatus .ok
  | des =>
    cases h
    exact (hs.storeMessage (by simpa using hs.blen)).setStatus .ok
  | emb =>
    rcases exec_emb_next h with ⟨hfits, rfl⟩ | ⟨-, rfl⟩
    · exact ((hs.storeBits hser).embedBits (by simpa using hfits)).setStatus .ok
    · exact (hs.storeBits hser).setStatus .capacityExceeded
  | ext =>
    cases h
    have hout : s.readOut.length ≤ p.bsMax := by
      have := hs.npix
      rw [State.readOut_length, Params.bsMax]
      omega
    exact ((hs.storeBits hout).storeMessage hout).setStatus .ok

theorem serve_keeps_legal {p : Params} {e : HostEvent} {s t : State} (hs : s.Legal p) (h : serve p e s = .next t) :
    t.Legal p := by
  cases served_of_serve h with
  | command hi => exact exec_keeps_legal hs hi
  | register _ _ hv => exact hs.setReg hv
  | writePb hi => exact hs.storePixel hi _
  | writeMi hj => exact hs.storeMi hj _
  | writeBs hk => exact hs.storeBs hk _
  | readReg | readPb _ | readMi _ | readMo _ | readBs _ => exact hs.answer _
  | reset => exact s.legal_afterReset p

theorem stepFor_keeps_legal {p : Params} {s t : State} (hs : s.Legal p) (h : stepFor p s = .next t) : t.Legal p := by
  rcases advance_next h with ⟨-, rfl⟩ | ⟨e, rest, -, he⟩
  · exact hs
  · exact serve_keeps_legal (hs.setInbox rest) he

/-- What holds of a state and is kept by every step holds after every run. -/
theorem runFor_induction {p : Params} {P : State → Prop} (keeps : ∀ s t, P s → stepFor p s = .next t → P t)
    {n : Nat} {s t : State} (hs : P s) (h : runFor p n s = .next t) : P t := by
  induction n generalizing s with
  | zero => cases h; exact hs
  | succ n ih =>
    simp only [runFor] at h
    split at h
    · exact ih (keeps _ _ hs ‹_›) h
    · cases h
    · cases h

theorem runFor_keeps_legal {p : Params} {n : Nat} {s t : State} (hs : s.Legal p) (h : runFor p n s = .next t) :
    t.Legal p :=
  runFor_induction (fun _ _ hs h => stepFor_keeps_legal hs h) hs h

/-- Settles O42: `State.Legal` is inductive as it stands; each operation keeps it, and a step is one of them. -/
theorem stepKeepsStateLegal : Obligations.StepKeepsStateLegal :=
  ⟨fun _ _ _ hs h => stepFor_keeps_legal hs h, fun _ _ hs h => stepFor_keeps_legal hs h⟩

/-- Settles O41. -/
theorem resetStateIsLegal : Obligations.ResetStateIsLegal := fun p evs => (State.legal_reset p).setInbox evs

/-- Settles O33: the refusals by the definition of the port, the bounds from `State.Legal` along the run. -/
theorem refusedHostWritesAndReachableBounds : Obligations.RefusedHostWritesAndReachableBounds := by
  refine ⟨fun p s v => ⟨fun h => ?_, fun h => ?_, fun h => ?_, rfl, rfl, rfl⟩, fun p s j c => rfl,
    fun p evs n s h => ?_⟩
  · exact hostWriteReg_out_of_range rfl h s
  · exact hostWriteReg_out_of_range rfl h s
  · exact hostWriteReg_out_of_range rfl h s
  · have hs : s.Legal p := runFor_keeps_legal ((State.legal_reset p).setInbox evs) h
    exact ⟨hs.npix, hs.milen, hs.blen, hs.molen⟩

end Sys2Proof.Machine

end

/-! # What commands read and what each event can change -/

section

namespace Sys2Proof.Machine

/-! ## Equal reads give equal operands -/

theorem Memory.content_congr {α : Type} {free : Nat → Nat → α} {m m' : Memory α} {n : Nat}
    (h : ∀ i < n, m'.read free i = m.read free i) : m'.content free n = m.content free n :=
  List.map_congr_left fun i hi => h i (List.mem_range.1 hi)

namespace State

variable {s s' : State}

theorem message_congr (hlen : s'.milen = s.milen) (h : ∀ j < s.milen, s'.readMi j = s.readMi j) :
    s'.message = s.message := by
  rw [message, message, hlen, Memory.content_congr h]

theorem bitSeq_congr (hlen : s'.blen = s.blen) (h : ∀ k < s.blen, s'.readBs k = s.readBs k) :
    s'.bitSeq = s.bitSeq := by
  rw [bitSeq, bitSeq, hlen, Memory.content_congr h]

theorem readOut_congr (hlen : s'.npix = s.npix)
    (h : ∀ k < 3 * s.npix, lsb (s'.readPb (usable k)) = lsb (s.readPb (usable k))) : s'.readOut = s.readOut := by
  rw [readOut, readOut, hlen]
  exact List.map_congr_left fun k hk => h k (List.mem_range.1 hk)

/-! ## Cells below and beyond a new length -/

theorem readBs_storeBits_congr (s s' : State) (B : List Bit) {k : Nat} (h : k < B.length) :
    (s'.storeBits B).readBs k = (s.storeBits B).readBs k := by
  rw [readBs_storeBits s B h, readBs_storeBits s' B h]

theorem readMo_storeMessage_congr (s s' : State) (M : List Byte) {j : Nat} (h : j < M.length) :
    (s'.storeMessage M).readMo j = (s.storeMessage M).readMo j := by
  rw [readMo_storeMessage s M h, readMo_storeMessage s' M h]

end State

theorem Memory.read_refill_beyond {α : Type} (free : Nat → Nat → α) (m : Memory α) {xs : List α} {i : Nat}
    (h : xs.length ≤ i) : (m.refill xs).read free i = free (m.epoch + 1) i := by
  simp [Memory.read, Memory.refill, Memory.lookup_cellsFrom, List.getElem?_eq_none h]

@[simp] theorem Memory.read_forget {α : Type} (free : Nat → Nat → α) (m : Memory α) (i : Nat) :
    m.forget.read free i = free (m.epoch + 1) i := rfl

theorem State.readBs_storeBits_beyond (s : State) {B : List Bit} {k : Nat} (h : B.length ≤ k) :
    (s.storeBits B).readBs k = Config.freeBit (s.bs.epoch + 1) k := Memory.read_refill_beyond _ _ h

theorem State.readMo_storeMessage_beyond (s : State) {M : List Byte} {j : Nat} (h : M.length ≤ j) :
    (s.storeMessage M).readMo j = Config.freeByte .mo (s.mo.epoch + 1) j := Memory.read_refill_beyond _ _ h

/-! ## EMB on PB -/

/-- Step 4 of EMB gives the `k`-th usable byte bit `k` of the sequence, whatever else the state holds. -/
theorem State.readPb_embedBits_congr {s s' : State} (B : List Bit) {k : Nat} (hk : k < B.length)
    (h : s'.readPb (usable k) = s.readPb (usable k)) :
    (State.embedBits B 0 s').readPb (usable k) = (State.embedBits B 0 s).readPb (usable k) := by
  have hb (u : State) := State.readPb_embedBits_usable B 0 k u hk
  rw [Nat.zero_add] at hb
  rw [hb, hb, h]

/-- EMB changes usable bytes within the NPIX pixels only. -/
theorem usable_of_exec_emb_changes {s t : State} (h : exec .emb s = .next t) {i : Nat}
    (hne : t.readPb i ≠ s.readPb i) : i % 4 ≠ 3 ∧ i < 4 * s.npix := by
  rcases exec_emb_next h with ⟨hfits, rfl⟩ | ⟨-, rfl⟩
  · by_cases hex : ∃ k < (serialize s.message).length, i = usable k
    · obtain ⟨k, hk, rfl⟩ := hex
      simp only [serialize_length, State.message_length] at hk
      exact ⟨usable_mod_ne k, (usable_lt_iff k _).2 (by omega)⟩
    · have hother : ∀ k < (serialize s.message).length, i ≠ usable (0 + k) := fun k hk he =>
        hex ⟨k, hk, by rwa [Nat.zero_add] at he⟩
      exact absurd (State.readPb_embedBits_other _ 0 i (s.storeBits _) hother) hne
  · exact absurd rfl hne

/-- EMB, run from two states that agree on what it reads. -/
theorem exec_emb_congr {s s' : State} (hM : s'.message = s.message) (hN : s'.npix = s.npix) :
    ∃ t t', exec .emb s = .next t ∧ exec .emb s' = .next t' ∧ t'.blen = t.blen ∧
      (∀ k < t.blen, t'.readBs k = t.readBs k) ∧ t'.status = t.status ∧
      ∀ k < 8 * (s.milen + 1), s'.readPb (usable k) = s.readPb (usable k) →
        t'.readPb (usable k) = t.readPb (usable k) := by
  have hlen : s'.milen = s.milen := by rw [← s'.message_length, hM, s.message_length]
  rcases Nat.lt_or_ge (3 * s.npix) (8 * (s.milen + 1)) with hover | hfits
  · refine ⟨_, _, exec_emb_overfull hover, exec_emb_overfull (by rwa [hN, hlen]), ?_⟩
    rw [hM]
    exact ⟨rfl, fun k hk => State.readBs_storeBits_congr s s' _ hk, rfl, fun _ _ h => h⟩
  · refine ⟨_, _, exec_emb_ok hfits, exec_emb_ok (by rwa [hN, hlen]), ?_⟩
    rw [hM]
    refine ⟨by simp, fun k hk => ?_, rfl, fun k hk h => State.readPb_embedBits_congr _ (by simpa using hk) h⟩
    simpa using State.readBs_storeBits_congr s s' _ (by simpa using hk)

/-- Settles O30: equal operands give the same stored sequence, command by command. -/
theorem commandsReadOnlyTheirOperands : Obligations.CommandsReadOnlyTheirOperands := by
  refine ⟨fun s s' hw hh => ?_, fun s s' hlen hmi => ?_, fun s s' hlen hbs => ?_, fun s s' hlen hmi hN => ?_,
    fun s s' hN hpb => ?_⟩
  · exact ⟨_, _, exec_cap s, exec_cap s', by simp [hw, hh], rfl⟩
  · refine ⟨_, _, exec_ser s, exec_ser s', ?_⟩
    rw [State.message_congr hlen hmi]
    exact ⟨rfl, fun k hk => State.readBs_storeBits_congr s s' _ hk, rfl⟩
  · refine ⟨_, _, exec_des s, exec_des s', ?_⟩
    rw [State.bitSeq_congr hlen hbs]
    exact ⟨rfl, fun j hj => State.readMo_storeMessage_congr s s' _ hj, rfl⟩
  · exact exec_emb_congr (State.message_congr hlen hmi) hN
  · refine ⟨_, _, exec_ext s, exec_ext s', ?_⟩
    have hout : s'.readOut = s.readOut := State.readOut_congr hN fun k hk => by
      rw [hpb (usable k) ((usable_lt_iff k _).2 hk) (usable_mod_ne k)]
    rw [hout]
    exact ⟨rfl, fun k hk => State.readBs_storeBits_congr s s' _ hk, rfl,
      fun j hj => State.readMo_storeMessage_congr (s.storeBits _) (s'.storeBits _) _ hj, rfl⟩

/-- Settles O38: the refilled buffer lists no cell at or beyond its new length, and a forgotten one none at all. -/
theorem cellsBeyondLengthAreFree : Obligations.CellsBeyondLengthAreFree := by
  refine ⟨fun s t h k hk => ?_, fun s t h j hj => ?_, fun p s t h i => ?_⟩
  · rcases h with h | h | h
    · cases h
      exact s.readBs_storeBits_beyond hk
    · rcases exec_emb_next h with ⟨-, rfl⟩ | ⟨-, rfl⟩
      · simpa using s.readBs_storeBits_beyond (by simpa using hk)
      · exact s.readBs_storeBits_beyond hk
    · cases h
      exact s.readBs_storeBits_beyond hk
  · rcases h with h | h
    · cases h
      exact s.readMo_storeMessage_beyond hj
    · cases h
      exact (s.storeBits _).readMo_storeMessage_beyond hj
  · cases h
    exact ⟨rfl, rfl, rfl, rfl⟩

/-- Settles O39: the parts that each kind of event leaves alone, by the operation that the event performs. -/
theorem onlyTheseEventsChangeEachPart : Obligations.OnlyTheseEventsChangeEachPart := by
  intro p s t e h hreset
  cases served_of_serve h with
  | @command i t hi =>
    have hword : t.status ≠ s.status → ∃ w : Byte, (encode i).toNat = w.toNat ∧ wordWf w = true :=
      fun _ => ⟨encode i, rfl, wordWf_encode i⟩
    cases i with
    | cap | ser | des | ext => cases hi; simpa [encode] using hword
    | emb =>
      have hpb (j : Nat) (hne : t.readPb j ≠ s.readPb j) := usable_of_exec_emb_changes hi hne
      rcases exec_emb_next hi with ⟨-, rfl⟩ | ⟨-, rfl⟩
      · simpa [encode] using And.intro hword hpb
      · simpa [encode] using hword
  | @register r v hc hro hv =>
    have hr (q : Reg) (hne : (s.setReg r v).readReg q ≠ s.readReg q) : r = q :=
      not_imp_comm.1 (fun hq => State.readReg_setReg_other (Ne.symm hq)) hne
    simpa [hc, State.readReg] using And.intro (hr .width) ⟨hr .height, hr .npix, hr .milen, hr .blen⟩
  | @writePb i v hi =>
    simpa using fun j => not_imp_comm.1 fun hj : i ≠ j => s.readPb_storePixel_other v hj.symm
  | @writeMi i c hi =>
    simpa using fun j => not_imp_comm.1 fun hj : i ≠ j => s.readMi_storeMi_other c hj.symm
  | @writeBs k b hk =>
    simpa using fun l => not_imp_comm.1 fun hl : k ≠ l => s.readBs_storeBs_other b hl.symm
  | readReg | readPb _ | readMi _ | readMo _ | readBs _ => simp
  | reset => exact absurd rfl hreset

end Sys2Proof.Machine

end

/-! # The host port: which events are answered, and what each answer leaves -/

section

namespace Sys2Proof.Machine

/-! ## A step and the host's first event -/

theorem stepFor_of_inbox {p : Params} {s : State} {e : HostEvent} {rest : List HostEvent} (h : s.inbox = e :: rest) :
    stepFor p s = serve p e (s.setInbox rest) := by
  simp only [stepFor, advance, h]

/-- No step faults, so an outcome is a next state or a refusal. -/
theorem next_or_refused (o : Host.Outcome State Fault Refusal) : (∃ t, o = .next t) ∨ ∃ r, o = .refused r := by
  cases o with
  | next t => exact .inl ⟨t, rfl⟩
  | fault r => cases r
  | refused r => exact .inr ⟨r, rfl⟩

/-- An outcome is a refusal exactly when it is no next state. -/
theorem refused_iff_not_next (o : Host.Outcome State Fault Refusal) :
    (∃ r, o = .refused r) ↔ ¬ ∃ t, o = .next t := by
  refine ⟨?_, (next_or_refused o).resolve_left⟩
  rintro ⟨r, rfl⟩ ⟨t, h⟩
  cases h

/-! ## The events that the host port answers are the allowed ones -/

theorem allowed_of_served {p : Params} {e : HostEvent} {s t : State} (h : Served p s e t) : e.allowed p = true := by
  cases h with
  | @command i _ _ => cases i <;> rfl
  | register hc hro hv => simp [HostEvent.allowed, hc, hro, hv]
  | writePb h | writeMi h | writeBs h | readPb h | readMi h | readMo h | readBs h => exact decide_eq_true h
  | readReg | reset => rfl

theorem exists_served_of_allowed {p : Params} {e : HostEvent} (h : e.allowed p = true) (s : State) :
    ∃ t, Served p s e t := by
  cases e with
  | writeReg r v =>
    simp only [HostEvent.allowed, Bool.and_eq_true, Bool.or_eq_true, Bool.not_eq_true', decide_eq_true_eq,
      bne_iff_ne] at h
    obtain ⟨⟨hro, hv⟩, hcmd⟩ := h
    by_cases hc : r = .cmd
    · subst hc
      obtain ⟨i, hi⟩ := exists_encode_of_wordWf (hcmd.resolve_left fun hne => hne rfl)
      obtain ⟨t, ht⟩ := exec_total i s
      have hval : v = (encode i).toNat := by
        have hv8 : v < 2 ^ 8 := hv
        rw [← hi, BitVec.toNat_ofNat, Nat.mod_eq_of_lt hv8]
      exact ⟨t, hval ▸ .command ht⟩
    · exact ⟨_, .register hc hro hv⟩
  | writePb i v => exact ⟨_, .writePb (of_decide_eq_true h)⟩
  | writeMi j c => exact ⟨_, .writeMi (of_decide_eq_true h)⟩
  | writeMo j c => cases h
  | writeBs k b => exact ⟨_, .writeBs (of_decide_eq_true h)⟩
  | readReg r => exact ⟨_, .readReg⟩
  | readPb i => exact ⟨_, .readPb (of_decide_eq_true h)⟩
  | readMi j => exact ⟨_, .readMi (of_decide_eq_true h)⟩
  | readMo j => exact ⟨_, .readMo (of_decide_eq_true h)⟩
  | readBs k => exact ⟨_, .readBs (of_decide_eq_true h)⟩
  | reset => exact ⟨_, .reset⟩

/-- The host port goes on exactly on the allowed events. -/
theorem serve_next_iff_allowed (p : Params) (e : HostEvent) (s : State) :
    (∃ t, serve p e s = .next t) ↔ e.allowed p = true := by
  simp only [serve_eq_next_iff]
  exact ⟨fun ⟨_, h⟩ => allowed_of_served h, fun h => exists_served_of_allowed h s⟩

/-- Settles O40: the port goes on exactly on the allowed events, and what is no next state is a refusal. -/
theorem allowedEventsAndOnlyTheyStep : Obligations.AllowedEventsAndOnlyTheyStep := by
  intro p s e rest h
  rw [refused_iff_not_next, stepFor_of_inbox h, serve_next_iff_allowed, Bool.not_eq_true]
  exact ⟨Iff.rfl, Iff.rfl⟩

/-! ## Command words -/

theorem stepFor_of_decode {p : Params} {s : State} {w : Byte} {i : Instr} {rest : List HostEvent}
    (h : s.inbox = .writeReg .cmd w.toNat :: rest) (hw : decode w = .ok i) :
    stepFor p s = exec i (s.setInbox rest) := by
  rw [stepFor_of_inbox h, serve_writeCmd, issue_of_decode hw]

/-- The bits of a legal command word: bits 7:3 are 0 and the others are its value (R82). -/
theorem encode_fields (i : Instr) :
    (encode i).extractLsb' 3 5 = 0#5 ∧ (encode i).toNat = ((encode i).extractLsb' 0 3).toNat := by
  cases i <;> decide

/-- Settles O4: a write to CMD issues the word, and only a word that decodes is performed. -/
theorem stepPerformsTheCommandWritten : Obligations.StepPerformsTheCommandWritten := by
  refine ⟨fun p s w i rest h hw => stepFor_of_decode h hw, fun s w i rest h hw => stepFor_of_decode h hw, rfl,
    fun p s => ⟨rfl, rfl⟩, fun w i hw => ?_, fun p s w e rest h hw t ht => ?_⟩
  · rw [eq_encode_of_decode hw]
    exact encode_fields i
  · rw [stepFor_of_inbox h, serve_writeCmd] at ht
    obtain ⟨i, hi, -⟩ := issue_next ht
    rw [hw] at hi
    cases hi

/-! ## Host writes and reads -/

/-- Settles O32: `setReg` sets the register and leaves the others and the buffers. -/
theorem hostWritesOneRegister : Obligations.HostWritesOneRegister := by
  intro p s r v hc hro hv
  refine ⟨s.setReg r v, serve_eq_next_iff.2 (.register hc hro hv), State.readReg_setReg_same hc hro, fun q hq => ?_,
    fun i => by simp, fun j => by simp, fun j => by simp, fun k => by simp, by simp, by simp⟩
  exact State.readReg_setReg_other (by simpa using hq)

/-- Settles O34: a write to a cell is read back there and nowhere else. -/
theorem hostWritesOneCell : Obligations.HostWritesOneCell := by
  refine ⟨fun p s i v hi => ?_, fun p s j c hj => ?_, fun p s k b hk => ?_⟩
  · exact ⟨_, serve_eq_next_iff.2 (.writePb hi), s.readPb_storePixel_same i v,
      fun _ hne => s.readPb_storePixel_other v hne, fun r _ => s.readReg_storePixel i v r,
      fun _ => rfl, fun _ => rfl, fun _ => rfl, rfl, rfl⟩
  · exact ⟨_, serve_eq_next_iff.2 (.writeMi hj), s.readMi_storeMi_same j c,
      fun _ hne => s.readMi_storeMi_other c hne, fun r _ => s.readReg_storeMi j c r,
      fun _ => rfl, fun _ => rfl, fun _ => rfl, rfl, rfl⟩
  · exact ⟨_, serve_eq_next_iff.2 (.writeBs hk), s.readBs_storeBs_same k b,
      fun _ hne => s.readBs_storeBs_other b hne, fun r _ => s.readReg_storeBs k b r,
      fun _ => rfl, fun _ => rfl, fun _ => rfl, rfl, rfl⟩

/-- Settles O35: each read is served by `answer`, which changes `reply` alone. -/
theorem hostReadsAnswerAndChangeNothing : Obligations.HostReadsAnswerAndChangeNothing := by
  intro p s e v h
  have hserved : Served p s e (s.answer v) := by
    rcases h with ⟨r, rfl, rfl⟩ | ⟨i, hi, rfl, rfl⟩ | ⟨j, hj, rfl, rfl⟩ | ⟨j, hj, rfl, rfl⟩ | ⟨k, hk, rfl, rfl⟩
    · exact .readReg
    · exact .readPb hi
    · exact .readMi hj
    · exact .readMo hj
    · exact .readBs hk
  exact ⟨_, serve_eq_next_iff.2 hserved, rfl, rfl, fun r _ => s.readReg_answer v r, fun _ => rfl, fun _ => rfl,
    fun _ => rfl, fun _ => rfl⟩

/-! ## After a reset -/

theorem Memory.content_eq_nil {α : Type} (free : Nat → Nat → α) (m : Memory α) {n : Nat} (h : n = 0) :
    m.content free n = [] := by
  rw [h]; rfl

/-- Settles O37: all that each command reads is empty, so what it writes is what the empty sequence gives. -/
theorem resetZeroesRegistersAndEmptiesBuffers : Obligations.ResetZeroesRegistersAndEmptiesBuffers := by
  refine ⟨State.readReg_reset, fun p s => ⟨s.afterReset, rfl, s.readReg_afterReset, rfl⟩, fun s hr => ?_⟩
  have hN : s.npix = 0 := hr .npix
  have hpix : s.pixels = [] := Memory.content_eq_nil _ _ (by rw [hN])
  have hmsg : s.message = [] := Memory.content_eq_nil _ _ (hr .milen)
  have hrec : s.recovered = [] := Memory.content_eq_nil _ _ (hr .molen)
  have hbits : s.bitSeq = [] := Memory.content_eq_nil _ _ (hr .blen)
  have hout : s.readOut = [] := List.eq_nil_of_length_eq_zero (by rw [s.readOut_length, hN])
  have hw : s.width = 0 := hr .width
  refine ⟨hpix, hmsg, hrec, hbits, by rw [State.capx, State.status_of_readReg_zero hr]; rfl,
    ⟨_, exec_cap s, by simp [hw, capacity]⟩, ⟨_, exec_ser s, by simp [hmsg, terminator]⟩,
    ⟨_, exec_des s, by simp [hbits, deserialize]⟩, ⟨_, exec_ext s, by simp [hout, deserialize]⟩,
    ⟨_, exec_emb_overfull (by omega), by simp [State.capx]⟩⟩

end Sys2Proof.Machine

end

/-! # The traversal of PB, and host accesses to absent cells -/

section

namespace Sys2Proof.Machine

/-! ## The traversal -/

theorem isAlpha_iff (i : Nat) : isAlpha i = true ↔ i % 4 = 3 := by
  unfold isAlpha
  exact beq_iff_eq

/-- The usable bytes are the ones that the channel selector does not call alpha (R48, R49). -/
theorem mod_ne_three_iff_exists_usable (i : Nat) : i % 4 ≠ 3 ↔ ∃ k, usable k = i :=
  ⟨exists_usable, fun ⟨k, hk⟩ => hk ▸ usable_mod_ne k⟩

/-- The last usable byte is the blue byte of the last pixel. -/
theorem usable_last {N : Nat} (hN : 0 < N) : usable (3 * N - 1) = 4 * N - 2 := by
  unfold usable
  omega

theorem usable_div_four (k : Nat) : usable k / 4 = k / 3 := by
  unfold usable
  omega

theorem usable_mod_four (k : Nat) : usable k % 4 = k % 3 := by
  unfold usable
  omega

/-- Settles O31: `usable` rises strictly, and its range and its bounds follow from its closed form. -/
theorem usableBytesEnumerated : Obligations.UsableBytesEnumerated := by
  exact ⟨fun _ _ => usable_lt_usable, mod_ne_three_iff_exists_usable, isAlpha_iff, fun N k => usable_lt_iff k N,
    fun N hN => ⟨usable_last hN, by omega⟩, fun k => ⟨usable_div_four k, usable_mod_four k⟩, by decide⟩

/-! ## Cells that a buffer does not have -/

theorem withCell_of_le {p : Params} {sp : Space} {i : Nat} (h : cellCount p sp ≤ i) (t : State) :
    withCell p sp i t = .refused (.noSuchCell sp i) := if_neg (Nat.not_lt_of_le h)

/-- Settles O36: every access but a write to MO goes through `withCell`, which refuses an absent cell. -/
theorem absentCellsRefused : Obligations.AbsentCellsRefused := by
  intro p s i
  refine ⟨fun hpb => ?_, fun hmi => ?_, fun hmo => ?_, fun v => rfl, fun hbs => ?_⟩
  · exact ⟨withCell_of_le (sp := .pb) hpb _, fun v => withCell_of_le (sp := .pb) hpb _⟩
  · exact ⟨withCell_of_le (sp := .mi) hmi _, fun v => withCell_of_le (sp := .mi) hmi _⟩
  · exact withCell_of_le (sp := .mo) hmo _
  · exact ⟨withCell_of_le (sp := .bs) hbs _, fun b => withCell_of_le (sp := .bs) hbs _⟩

end Sys2Proof.Machine

end

/-! # The command word: the table, the reserved words, decoding and encoding -/

section

namespace Sys2Proof.Machine

/-! ## The legal words -/

theorem decode_eq_ok_iff {w : Byte} {i : Instr} : decode w = .ok i ↔ w = encode i :=
  ⟨eq_encode_of_decode, fun h => h ▸ decode_encode i⟩

/-- The table has one row for each command: its word, with every bit compared (R82). -/
theorem mem_opcodeTable_iff {r : OpcodeRow} :
    r ∈ opcodeTable ↔ r = { instr := r.instr, pattern := encode r.instr, mask := 0xFF#8 } := by
  have rows : ∀ r ∈ opcodeTable, r = { instr := r.instr, pattern := encode r.instr, mask := 0xFF#8 } := by decide
  have complete : ∀ i : Instr, { instr := i, pattern := encode i, mask := 0xFF#8 } ∈ opcodeTable := by
    intro i
    cases i <;> decide
  exact ⟨rows r, fun h => h ▸ complete r.instr⟩

/-- The table selects a command by its command word and by no other word (R82). -/
theorem exists_row_iff {w : Byte} {i : Instr} :
    (∃ r ∈ opcodeTable, r.instr = i ∧ r.mask = 0xFF#8 ∧ w &&& r.mask = r.pattern) ↔ w = encode i := by
  have whole : w &&& 0xFF#8 = w := BitVec.and_allOnes
  constructor
  · rintro ⟨r, hr, rfl, hmask, hsel⟩
    have hpattern : r.pattern = encode r.instr := congrArg OpcodeRow.pattern (mem_opcodeTable_iff.1 hr)
    rw [← hpattern, ← hsel, hmask, whole]
  · rintro rfl
    exact ⟨{ instr := i, pattern := encode i, mask := 0xFF#8 }, mem_opcodeTable_iff.2 rfl, rfl, rfl, whole⟩

/-- Settles O1: the decoder and the table both select a command by its command word alone. -/
theorem commandWordsAreTheTable : Obligations.CommandWordsAreTheTable := by
  refine ⟨decode_encode .cap, decode_encode .ser, decode_encode .des, decode_encode .emb, decode_encode .ext,
    fun w i => decode_eq_ok_iff.trans exists_row_iff.symm, fun w i hw => ?_⟩
  rw [eq_encode_of_decode hw]
  exact (encode_fields i).1

/-! ## The reserved words -/

theorem decode_of_reservedField_ne {w : Byte} (h : reservedField w ≠ 0#5) : decode w = .error (.reservedBits w) :=
  if_pos h

theorem decode_of_reserved_op {w : Byte} (h : reservedField w = 0#5)
    (hop : opField w = 0#3 ∨ opField w = 6#3 ∨ opField w = 7#3) : decode w = .error (.reservedOp w) := by
  rcases hop with hop | hop | hop <;> simp [decode, h, hop]

/-- A word that does not decode is refused under the name that the decoder gives it (R86, R87). -/
theorem issue_of_reservedOp {w v : Byte} (h : decode w = .error (.reservedOp v)) (s : State) :
    issue w s = .refused (.reservedOp v) := by
  simp only [issue, h]

theorem issue_of_reservedBits {w v : Byte} (h : decode w = .error (.reservedBits v)) (s : State) :
    issue w s = .refused (.reservedBits v) := by
  simp only [issue, h]

/-- The numbers below 256 that decode as command words, in order (R82). -/
theorem range_filter_decodes :
    ((List.range 256).filter fun n => (decode (BitVec.ofNat 8 n)).toOption.isSome) = [1, 2, 3, 4, 5] := by
  decide

/-- The other 251 words do not decode. -/
theorem range_filter_reserved_length :
    ((List.range 256).filter fun n => (decode (BitVec.ofNat 8 n)).toOption.isNone).length = 251 := by
  have parts := List.length_eq_length_filter_add (l := List.range 256)
    fun n => (decode (BitVec.ofNat 8 n)).toOption.isSome
  simp only [range_filter_decodes, Option.not_isSome, List.length_range, List.length_cons, List.length_nil] at parts
  omega

/-- Settles O2: a write to CMD issues the word, and the decoder names the reserved ones. -/
theorem reservedWordsAreRefused : Obligations.ReservedWordsAreRefused := by
  refine ⟨fun w hres hop p s rest h => ?_, fun w hres p s rest h => ?_, ?_, range_filter_reserved_length⟩
  · rw [stepFor_of_inbox h, serve_writeCmd, issue_of_reservedOp (decode_of_reserved_op hres hop)]
  · rw [stepFor_of_inbox h, serve_writeCmd, issue_of_reservedBits (decode_of_reservedField_ne hres)]
  · rw [range_filter_decodes]
    rfl

/-! ## Decoding and encoding -/

@[simp] theorem tableWordByte_toNat (w : Byte) : tableWordByte 8 w.toNat = w := by
  rw [tableWordByte, Nat.mod_eq_of_lt w.isLt]
  exact BitVec.eq_of_toNat_eq (Nat.mod_eq_of_lt w.isLt)

/-- A table word of one byte that decodes gives the same command (R70). -/
theorem decodeTableWord_of_decode {w : Byte} {i : Instr} (h : decode w = .ok i) :
    decodeTableWord 8 w.toNat = some i := by
  simp [decodeTableWord, decodeBytes, h, Except.map]

/-- Settles O3: a word decodes to a command exactly when it is the command's word, and a table word is that one byte. -/
theorem decodeAndEncodeAgree : Obligations.DecodeAndEncodeAgree :=
  ⟨fun i _ => ⟨decode_encode i, decodeTableWord_of_decode (decode_encode i)⟩,
    fun _ _ h => (eq_encode_of_decode h).symm⟩

end Sys2Proof.Machine

end

/-! # The bit codec: SER, DES and the functions they compute -/

section

namespace Sys2Proof.Machine

/-! ## serialize -/

/-- Dropping the characters' bits leaves the terminator (R101). -/
theorem drop_serialize (M : List Byte) : (serialize M).drop (8 * M.length) = terminator := by
  have hbits : (M.flatMap charBits).length = 8 * M.length := by
    have := serialize_length M
    rw [serialize, List.length_append, terminator_length] at this
    omega
  exact List.drop_left' hbits

theorem charBits_injective {c d : Byte} (h : charBits c = charBits d) : c = d := by
  rw [← groupChar_charBits c, h, groupChar_charBits]

/-- A serialized message determines its message, character by character (R183). -/
theorem serialize_injective {M M' : List Byte} (h : serialize M = serialize M') : M = M' := by
  have hlen : M.length = M'.length := by
    have := congrArg List.length h
    simp only [serialize_length] at this
    omega
  induction M generalizing M' with
  | nil => exact (List.eq_nil_of_length_eq_zero hlen.symm).symm
  | cons c M ih =>
    cases M' with
    | nil => cases hlen
    | cons d M' =>
      rw [serialize_cons, serialize_cons] at h
      obtain ⟨hc, hM⟩ := List.append_inj h rfl
      rw [charBits_injective hc, ih hM (Nat.succ.inj hlen)]

/-- Settles O10: the length of `serialize`, its last group, and its injectivity. -/
theorem serializeLengthAndInjective : Obligations.SerializeLengthAndInjective := by
  refine ⟨fun M => ⟨serialize_length M, ⟨_, serialize_length M⟩, fun h => ?_, drop_serialize M⟩, rfl, fun M => ?_,
    fun _ _ => serialize_injective⟩
  · have := serialize_length M
    rw [h, List.length_nil] at this
    omega
  · rw [serialize_length]
    omega

/-- What follows a serialized message is not looked at, and its first character 0 ends it (R110). -/
theorem deserialize_serialize_append (M : List Byte) (X : List Bit) :
    deserialize (serialize M ++ X) = M.takeWhile fun c => c ≠ 0x00#8 := by
  induction M with
  | nil => exact deserialize_terminator X
  | cons c M ih =>
    rw [serialize_cons, List.append_assoc, List.takeWhile_cons]
    by_cases hc : c = 0x00#8
    · rw [hc, deserialize_charBits_zero]
      rfl
    · rw [deserialize_charBits hc, ih, if_pos (by simpa using hc)]

theorem deserialize_serialize (M : List Byte) :
    deserialize (serialize M) = M.takeWhile fun c => c ≠ 0x00#8 := by
  simpa using deserialize_serialize_append M []

/-- Settles O15: the message up to its first character 0, which is all of it when it has none. -/
theorem deserializeOfSerialize : Obligations.DeserializeOfSerialize := by
  refine ⟨deserialize_serialize_append, deserialize_serialize, fun M => ?_⟩
  rw [deserialize_serialize, List.takeWhile_eq_self_iff]
  simp

/-! ## The terminator's index -/

/-- `e` is the index of the first complete group that is all zero, or the number of complete groups when there is none
(R105). -/
structure IsTerminatorIndex (B : List Bit) (e : Nat) : Prop where
  le : e ≤ B.length / 8
  ne_terminator : ∀ j < e, group B j ≠ terminator
  stop : e < B.length / 8 → group B e = terminator

namespace IsTerminatorIndex

variable {B : List Bit} {e e' n : Nat}

/-- No all-zero group comes before it. -/
theorem le_of_group_eq (h : IsTerminatorIndex B e) (hn : group B n = terminator) : e ≤ n :=
  Nat.le_of_not_lt fun hlt => h.ne_terminator n hlt hn

theorem le_of_isTerminatorIndex (h : IsTerminatorIndex B e) (h' : IsTerminatorIndex B e') : e ≤ e' := by
  rcases Nat.lt_or_ge e' (B.length / 8) with hlt | hge
  · exact h.le_of_group_eq (h'.stop hlt)
  · exact Nat.le_trans h.le hge

theorem unique (h : IsTerminatorIndex B e) (h' : IsTerminatorIndex B e') : e = e' :=
  Nat.le_antisymm (h.le_of_isTerminatorIndex h') (h'.le_of_isTerminatorIndex h)

/-- It is the number of complete groups exactly when none of them is all zero. -/
theorem eq_div_iff (h : IsTerminatorIndex B e) :
    e = B.length / 8 ↔ ∀ j < B.length / 8, group B j ≠ terminator := by
  refine ⟨fun he => he ▸ h.ne_terminator, fun hne => ?_⟩
  exact h.unique ⟨Nat.le_refl _, hne, fun hlt => absurd hlt (Nat.lt_irrefl _)⟩

end IsTerminatorIndex

/-- `deserialize` gives as many characters as there are groups before the terminator. -/
theorem isTerminatorIndex_deserialize (B : List Bit) : IsTerminatorIndex B (deserialize B).length := by
  obtain ⟨hle, hchar, hstop⟩ := deserialize_spec B
  exact ⟨hle, fun j hj => (hchar j hj).2, hstop⟩

/-- `deserialize` reads the groups before the terminator, wherever its index comes from. -/
theorem deserialize_eq_map {B : List Bit} {e : Nat} (h : IsTerminatorIndex B e) :
    deserialize B = (List.range e).map fun j => groupChar (group B j) := by
  obtain ⟨-, hchar, -⟩ := deserialize_spec B
  rw [h.unique (isTerminatorIndex_deserialize B)]
  refine List.ext_getElem (by simp) fun j hj _ => ?_
  rw [(hchar j hj).1]
  simp

/-- The scan of R105 finds the terminator's index. -/
theorem isTerminatorIndex_terminatorIndex (B : List Bit) : IsTerminatorIndex B (terminatorIndex B) := by
  unfold terminatorIndex
  cases hfind : (List.range (B.length / 8)).find? fun j => group B j == terminator with
  | none =>
    rw [List.find?_eq_none] at hfind
    exact ⟨Nat.le_refl _, fun j hj => by simpa using hfind j (List.mem_range.2 hj),
      fun hlt => absurd hlt (Nat.lt_irrefl _)⟩
  | some e =>
    obtain ⟨hzero, hmem, hbefore⟩ := List.find?_range_eq_some.1 hfind
    exact ⟨Nat.le_of_lt (List.mem_range.1 hmem), fun j hj => by simpa using hbefore j hj,
      fun _ => by simpa using hzero⟩

/-- Settles O12: both forms read the groups before the terminator, and the scan finds its index. -/
theorem twoPhaseDeserializerAgrees : Obligations.TwoPhaseDeserializerAgrees := fun B =>
  deserialize_eq_map (isTerminatorIndex_terminatorIndex B)

/-- Settles O13: the length is the terminator's index. -/
theorem deserializeLengthBound : Obligations.DeserializeLengthBound := fun B =>
  ⟨deserialize_length_le B, (isTerminatorIndex_deserialize B).eq_div_iff⟩

/-! ## Bit sequences with the same groups -/

/-- `deserialize` depends on the groups before the terminator alone: `B'` may differ from `B` in all others. -/
theorem deserialize_eq_of_groups {B B' : List Bit} {e : Nat} (h : IsTerminatorIndex B e)
    (h' : IsTerminatorIndex B' e) (hgroups : ∀ j < e, group B j = group B' j) : deserialize B = deserialize B' := by
  rw [deserialize_eq_map h, deserialize_eq_map h']
  exact List.map_congr_left fun j hj => by rw [hgroups j (List.mem_range.1 hj)]

/-- The bits of an incomplete group do not count (R108). -/
theorem deserialize_congr {B B' : List Bit} (hlen : B.length / 8 = B'.length / 8)
    (hgroups : ∀ j < B.length / 8, group B j = group B' j) : deserialize B = deserialize B' := by
  have h := isTerminatorIndex_deserialize B
  have hbefore : ∀ j < (deserialize B).length, group B j = group B' j := fun j hj =>
    hgroups j (Nat.lt_of_lt_of_le hj h.le)
  refine deserialize_eq_of_groups h ⟨hlen ▸ h.le, fun j hj => ?_, fun hlt => ?_⟩ hbefore
  · rw [← hbefore j hj]
    exact h.ne_terminator j hj
  · rw [← hlen] at hlt
    rw [← hgroups _ hlt]
    exact h.stop hlt

/-- The first `n` complete groups are those of the sequence cut after them, whatever follows. -/
theorem group_take_append {B : List Bit} {n j : Nat} (hn : 8 * n ≤ B.length) (hj : j < n) (X : List Bit) :
    group (B.take (8 * n) ++ X) j = group B j := by
  have hcut : (B.take (8 * n)).length = 8 * n := List.length_take_of_le hn
  rw [group, group, List.drop_append_of_le_length (by omega),
    List.take_append_of_le_length (by rw [List.length_drop]; omega), List.drop_take, List.take_take,
    Nat.min_eq_left (by omega)]

/-- What stands after an all-zero group has no effect (R108). -/
theorem deserialize_take_append {B : List Bit} {n : Nat} (hn : n < B.length / 8) (hzero : group B n = terminator)
    (X : List Bit) : deserialize (B.take (8 * (n + 1)) ++ X) = deserialize B := by
  have h := isTerminatorIndex_deserialize B
  have hfits : 8 * (n + 1) ≤ B.length := by omega
  have hle : (deserialize B).length ≤ n := h.le_of_group_eq hzero
  have hgroups : ∀ j < n + 1, group (B.take (8 * (n + 1)) ++ X) j = group B j := fun j hj =>
    group_take_append hfits hj X
  refine deserialize_eq_of_groups ⟨?_, fun j hj => ?_, fun _ => ?_⟩ h fun j hj => hgroups j (by omega)
  · rw [List.length_append, List.length_take_of_le hfits]
    omega
  · rw [hgroups j (by omega)]
    exact h.ne_terminator j hj
  · rw [hgroups _ (by omega)]
    exact h.stop (by omega)

/-- The trailing bits that make no complete group are dropped (R108). -/
theorem deserialize_take_complete (B : List Bit) : deserialize B = deserialize (B.take (8 * (B.length / 8))) := by
  have hfits : 8 * (B.length / 8) ≤ B.length := Nat.mul_div_le _ _
  refine deserialize_congr (by rw [List.length_take_of_le hfits]; omega) fun j hj => ?_
  simpa using (group_take_append hfits hj []).symm

/-- Settles O14: each corner case is a fact about which groups come before the terminator. -/
theorem deserializeCornerCases : Obligations.DeserializeCornerCases :=
  ⟨fun _ => deserialize_short, deserialize_terminator,
    fun B hne => ⟨(isTerminatorIndex_deserialize B).eq_div_iff.2 hne, deserialize_take_complete B⟩,
    fun _ X _ hj hzero => deserialize_take_append hj hzero X, fun _ _ => deserialize_congr⟩

/-! ## Groups as the cells of BS -/

theorem map_range_eq_terminator_iff (f : Nat → Bit) : (List.range 8).map f = terminator ↔ ∀ b < 8, f b = false := by
  rw [terminator, List.eq_replicate_iff]
  simp

/-- The value of a group is the sum of its bits, the first weighing the most (R76). -/
theorem groupChar_map_range_toNat (f : Nat → Bit) :
    (groupChar ((List.range 8).map f)).toNat = ((List.range 8).map fun b => (f b).toNat * 2 ^ (7 - b)).sum := by
  have hrange : List.range 8 = [0, 1, 2, 3, 4, 5, 6, 7] := rfl
  have hlt : groupValue ((List.range 8).map f) < 2 ^ 8 := groupValue_lt (f 0) (f 1) (f 2) (f 3) (f 4) (f 5) (f 6) (f 7)
  rw [groupChar, BitVec.toNat_ofNat, Nat.mod_eq_of_lt hlt]
  simp only [hrange, groupValue, List.map_cons, List.map_nil, List.foldl_cons, List.foldl_nil, List.sum_cons,
    List.sum_nil]
  omega

namespace State

variable {s : State} {j : Nat}

/-- A complete group of the bit sequence is eight cells of BS. -/
theorem group_bitSeq (hj : j < s.blen / 8) : group s.bitSeq j = (List.range 8).map fun b => s.readBs (8 * j + b) := by
  refine List.ext_getElem (by simp [group]; omega) fun b _ _ => ?_
  simp [group, bitSeq, readBs]

theorem group_bitSeq_eq_terminator_iff (hj : j < s.blen / 8) :
    group s.bitSeq j = terminator ↔ ∀ b < 8, s.readBs (8 * j + b) = false := by
  rw [group_bitSeq hj, map_range_eq_terminator_iff]

theorem group_bitSeq_ne_terminator_iff (hj : j < s.blen / 8) :
    group s.bitSeq j ≠ terminator ↔ ∃ b < 8, s.readBs (8 * j + b) = true := by
  rw [Ne, group_bitSeq_eq_terminator_iff hj]
  simp

/-! ## What storing a sequence and ending the command leave -/

variable (s)

theorem message_getElem (hj : j < s.message.length) : s.message[j] = s.readMi j := Memory.content_getElem _ _ _ _ hj

theorem readBs_storeBits_of_getElem? {B : List Bit} {k : Nat} {b : Bit} (h : B[k]? = some b) :
    (s.storeBits B).readBs k = b := by
  obtain ⟨hk, hb⟩ := List.getElem?_eq_some_iff.1 h
  rw [readBs_storeBits s B hk, hb]

/-- A stored message holds bit `b` of character `j` at `8 j + b`, the most significant bit first (R74, R103). -/
theorem readBs_storeBits_serialize {b : Nat} (hj : j < s.milen) (hb : b < 8) :
    (s.storeBits (serialize s.message)).readBs (8 * j + b) = (s.readMi j).getLsbD (7 - b) := by
  have hlen : j < s.message.length := by simpa using hj
  rw [s.readBs_storeBits_of_getElem? (serialize_getElem? s.message j b hlen hb), message_getElem, bitOf]

/-- After the characters stand the terminator's bits (R75, R103). -/
theorem readBs_storeBits_serialize_terminator {b : Nat} (hb : b < 8) :
    (s.storeBits (serialize s.message)).readBs (8 * s.milen + b) = false := by
  have h := serialize_getElem?_terminator s.message b hb
  rw [message_length] at h
  exact s.readBs_storeBits_of_getElem? h

@[simp] theorem capx_setStatus_zero : (s.setStatus 0x00#8).capx = false := by
  simp [capx]

theorem keepsRegsBut_setStatus {s t : State} {written : List Reg} (h : s.keepsRegsBut t written) (w : Byte) :
    s.keepsRegsBut (t.setStatus w) (.status :: written) := by
  intro r hr
  rw [List.mem_cons, not_or] at hr
  obtain ⟨hstatus, hwritten⟩ := hr
  rw [← h r hwritten]
  cases r with
  | status => exact absurd rfl hstatus
  | cmd | width | height | capacity | npix | milen | molen | blen => rfl

theorem keepsRegsBut_storeBits (B : List Bit) : s.keepsRegsBut (s.storeBits B) [.blen] := by
  intro r hr
  cases r with
  | blen => exact absurd (List.mem_singleton_self _) hr
  | cmd | status | width | height | capacity | npix | milen | molen => rfl

theorem keepsRegsBut_storeMessage (M : List Byte) : s.keepsRegsBut (s.storeMessage M) [.molen] := by
  intro r hr
  cases r with
  | molen => exact absurd (List.mem_singleton_self _) hr
  | cmd | status | width | height | capacity | npix | milen | blen => rfl

end State

/-- Settles O9: BS and BLEN come from `storeBits`, and nothing else is written but STATUS. -/
theorem serWritesSerializedMessage : Obligations.SerWritesSerializedMessage := by
  refine ⟨rfl, fun s => ⟨_, exec_ser s, ?_⟩⟩
  have hbits : ((s.storeBits (serialize s.message)).setStatus 0x00#8).bitSeq = serialize s.message := by simp
  have hlen : (serialize s.message).length = 8 * (s.milen + 1) := by simp
  refine ⟨hlen, fun j hj b hb => s.readBs_storeBits_serialize hj hb,
    fun b hb => s.readBs_storeBits_serialize_terminator hb, hbits, rfl, State.capx_setStatus_zero _,
    fun p hp => serialize_length_le_bsMax (by simpa using hp), fun hzero => ⟨?_, ?_⟩, fun hhi => ?_,
    State.keepsRegsBut_setStatus (s.keepsRegsBut_storeBits _) _, fun _ => rfl, fun _ => rfl, fun _ => rfl, rfl, rfl⟩
  · exact hlen.trans (by rw [hzero])
  · rw [hbits, List.eq_nil_of_length_eq_zero (s.message_length.trans hzero)]
    rfl
  · rw [hbits, hhi]
    rfl

/-- Settles O11: `e` is the terminator's index, and the groups before it are cells of BS. -/
theorem desReadsGroupsUpToTerminator : Obligations.DesReadsGroupsUpToTerminator := by
  refine ⟨rfl, fun s => ⟨_, (deserialize s.bitSeq).length, exec_des s, ?_⟩⟩
  obtain ⟨hle, hne, hstop⟩ := isTerminatorIndex_deserialize s.bitSeq
  obtain ⟨-, hchar, -⟩ := deserialize_spec s.bitSeq
  rw [s.bitSeq_length] at hle hstop
  have hrec : ((s.storeMessage (deserialize s.bitSeq)).setStatus 0x00#8).recovered = deserialize s.bitSeq := by simp
  refine ⟨hle, fun j hj => ?_, fun hlt => (State.group_bitSeq_eq_terminator_iff hlt).1 (hstop hlt), rfl,
    fun j hj => ?_, hrec, rfl, State.capx_setStatus_zero _,
    fun p hp => deserialize_length_le_moMax (by simpa using hp), fun hzero => ?_, fun hhi => ?_,
    State.keepsRegsBut_setStatus (s.keepsRegsBut_storeMessage _) _, fun _ => rfl, fun _ => rfl, fun _ => rfl, rfl, rfl⟩
  · exact (State.group_bitSeq_ne_terminator_iff (by omega)).1 (hne j hj)
  · rw [State.readMo_setStatus, s.readMo_storeMessage _ hj, (hchar j hj).1, State.group_bitSeq (by omega),
      groupChar_map_range_toNat]
  · exact Nat.eq_zero_of_le_zero (hle.trans_eq (by rw [hzero]))
  · rw [hrec, hhi]
    rfl

end Sys2Proof.Machine

end

/-! # The capacity calculator: `capacity` in closed form, its range, and what CAP writes -/

section

namespace Sys2Proof.Machine

/-! ## The values of `capacity` -/

/-- The natural-number form of the last line of `capacity`, where the subtraction stops at 0 (R121). -/
theorem capacity_eq (w h : Nat) : capacity w h = w * h * 3 / 8 - 1 := rfl

theorem capacity_eq_zero {w h : Nat} (hsmall : w * h ≤ 5) : capacity w h = 0 := by
  rw [capacity_eq]
  omega

theorem capacity_eq_ite (w h : Nat) : capacity w h = if 8 ≤ w * h * 3 then w * h * 3 / 8 - 1 else 0 := by
  split
  · exact capacity_eq w h
  · exact capacity_eq_zero (by omega)

theorem capacity_mono {w h w' h' : Nat} (hle : w * h ≤ w' * h') : capacity w h ≤ capacity w' h' :=
  Nat.sub_le_sub_right (Nat.div_le_div_right (Nat.mul_le_mul_right 3 hle)) 1

theorem capacity_congr {w h w' h' : Nat} (heq : w * h = w' * h') : capacity w h = capacity w' h' :=
  Nat.le_antisymm (capacity_mono heq.le) (capacity_mono heq.ge)

/-! ## Its range -/

/-- A message of that length needs no more bits than the pixels have usable ones. -/
theorem eight_mul_capacity_le (w h : Nat) : 8 * capacity w h ≤ 3 * (w * h) := by
  rw [capacity_eq]
  omega

theorem eight_mul_capacity_lt {w h d : Nat} (hw : w < 2 ^ d) (hh : h < 2 ^ d) :
    8 * capacity w h < 3 * 2 ^ (2 * d) := by
  have hmul : w * h < 2 ^ (2 * d) := (Nat.mul_lt_mul'' hw hh).trans_eq (by rw [Nat.two_mul, Nat.pow_add])
  exact (eight_mul_capacity_le w h).trans_lt (Nat.mul_lt_mul_of_pos_left hmul (by decide))

/-- The largest dimensions give the largest capacity (R123). -/
theorem capacity_le_of_lt_two_pow {w h d : Nat} (hw : w < 2 ^ d) (hh : h < 2 ^ d) :
    capacity w h ≤ capacity (2 ^ d - 1) (2 ^ d - 1) :=
  capacity_mono (Nat.mul_le_mul (Nat.le_pred_of_lt hw) (Nat.le_pred_of_lt hh))

/-- Settles O7: the closed form is `capacity_eq`, and the rest follows from it through the product of the dimensions. -/
theorem capacityClosedFormAndRange : Obligations.CapacityClosedFormAndRange := by
  refine ⟨fun w h _ => capacity_eq w h, fun w h hlt => capacity_eq_zero (by omega), fun n => by omega,
    fun _ _ => capacity_eq_zero, fun w h hsix => ?_,
    fun p w h hw hh => ⟨eight_mul_capacity_lt hw hh, capacity_lt_of_lt_two_pow hw hh⟩,
    fun _ _ _ _ => capacity_congr, fun _ _ _ _ => capacity_mono⟩
  rw [capacity_eq, hsix]

/-! ## What CAP writes -/

theorem State.keepsRegsBut_storeCapacity (s : State) (v : Nat) : s.keepsRegsBut (s.storeCapacity v) [.capacity] := by
  intro r hr
  cases r with
  | capacity => exact absurd (List.mem_singleton_self _) hr
  | cmd | status | width | height | npix | milen | molen | blen => rfl

/-- Settles O6: CAP stores `capacity` of the two dimensions, and nothing else is written but STATUS. -/
theorem capWritesCapacity : Obligations.CapWritesCapacity := by
  refine ⟨rfl, fun s => ⟨_, exec_cap s, ?_⟩⟩
  rw [State.setStatus_capacity, State.storeCapacity_capacity]
  refine ⟨capacity_eq_ite _ _, rfl, State.capx_setStatus_zero _, fun hsmall => capacity_eq_zero ?_,
    fun hw hh => ?_, fun hw hh => ?_, fun p => capacity_le_of_lt_two_pow,
    State.keepsRegsBut_setStatus (s.keepsRegsBut_storeCapacity _) _, fun _ => rfl, fun _ => rfl, fun _ => rfl,
    fun _ => rfl, rfl, rfl⟩
  · rcases hsmall with hw | hh | hle
    · simp [hw]
    · simp [hh]
    · exact hle
  · rw [hw, hh, capacity_eq]
  · rw [hw, hh, capacity_eq]

end Sys2Proof.Machine

end

/-! # The embedder: what EMB leaves in each register and buffer, and that it is the source's walk -/

section

namespace Sys2Proof.Machine

namespace State

variable (s : State) (B : List Bit)

/-! ## What step 4 keeps -/

@[simp] theorem readReg_embedBits (k : Nat) (r : Reg) : (embedBits B k s).readReg r = s.readReg r :=
  of_embedBits (fun t => t.readReg r) (fun _ _ => by cases r <;> rfl) B k s

@[simp] theorem bitSeq_embedBits (k : Nat) : (embedBits B k s).bitSeq = s.bitSeq :=
  of_embedBits bitSeq (fun _ _ => rfl) B k s

theorem keepsRegsBut_embedBits {s t : State} {written : List Reg} (h : s.keepsRegsBut t written) (k : Nat) :
    s.keepsRegsBut (embedBits B k t) written := fun r hr => (readReg_embedBits t B k r).trans (h r hr)

/-! ## What step 4 leaves in PB, byte by byte -/

theorem readPb_embedBits_alpha (k : Nat) {i : Nat} (hi : i % 4 = 3) : (embedBits B k s).readPb i = s.readPb i :=
  readPb_embedBits_other B k i s fun n _ he => usable_mod_ne (k + n) (he ▸ hi)

/-- A usable byte takes the bit of its rank, and keeps its value when the bits are used up before it. -/
theorem readPb_embedBits_zero_usable (k : Nat) :
    (embedBits B 0 s).readPb (usable k) = (B[k]?.map (setLsb (s.readPb (usable k)))).getD (s.readPb (usable k)) := by
  by_cases hk : k < B.length
  · have hwritten := readPb_embedBits_usable B 0 k s hk
    rw [Nat.zero_add] at hwritten
    rw [hwritten, List.getElem?_eq_getElem hk]
    rfl
  · rw [List.getElem?_eq_none (by omega)]
    refine readPb_embedBits_other B 0 (usable k) s fun n hn he => ?_
    have := usable_injective he
    omega

/-- Storing a sequence and embedding it gives usable byte `k` the bit that BS holds at `k` (R132). -/
theorem readPb_embedBits_storeBits {k : Nat} (hk : k < B.length) :
    (embedBits B 0 (s.storeBits B)).readPb (usable k) =
      setLsb (s.readPb (usable k)) ((embedBits B 0 (s.storeBits B)).readBs k) := by
  rw [readPb_embedBits_zero_usable, List.getElem?_eq_getElem hk, readBs_embedBits, s.readBs_storeBits B hk]
  rfl

/-! ## Step 4 on the buffer's content -/

/-- Bit by bit over the usable bytes (R133) leaves what byte by byte over the whole buffer does (R130). -/
theorem pixels_embedBits : (embedBits B 0 s).pixels = embedWalk 0 B s.pixels := by
  refine List.ext_getElem (by simp) fun i hi hi' => ?_
  have hlen : i < s.pixels.length := by simpa using hi
  have hold : s.pixels[i] = s.readPb i := Memory.content_getElem _ _ _ _ hlen
  have hnew : (embedBits B 0 s).pixels[i] = (embedBits B 0 s).readPb i := Memory.content_getElem _ _ _ _ hi
  rw [hnew, embedWalk_getElem s.pixels 0 B i hlen, hold, Nat.zero_add, usableBelow_zero, Nat.sub_zero]
  by_cases halpha : i % 4 = 3
  · rw [if_pos halpha, s.readPb_embedBits_alpha B 0 halpha]
  · obtain ⟨k, rfl⟩ := exists_usable halpha
    rw [if_neg halpha, usableBelow_usable, readPb_embedBits_zero_usable]

@[simp] theorem pixels_setStatus (w : Byte) : (s.setStatus w).pixels = s.pixels := rfl

@[simp] theorem pixels_storeBits : (s.storeBits B).pixels = s.pixels := rfl

@[simp] theorem capx_setStatus_one : (s.setStatus 0x01#8).capx = true := by
  simp [capx]

/-! ## `embed` on the content, in its two outcomes -/

theorem embed_pixels_of_fits (h : 8 * (s.milen + 1) ≤ 3 * s.npix) :
    embed s.pixels s.message = some (embedWalk 0 (serialize s.message) s.pixels) := by
  refine if_neg ?_
  rw [serialize_length, message_length, pixels_length]
  omega

theorem embed_pixels_of_overfull (h : 3 * s.npix < 8 * (s.milen + 1)) : embed s.pixels s.message = none := by
  refine if_pos ?_
  rw [serialize_length, message_length, pixels_length]
  omega

end State

/-- Settles O17: PB comes from step 4, BS and BLEN from `storeBits`, and nothing else is written but STATUS. -/
theorem embWritesMessageBits : Obligations.EmbWritesMessageBits := by
  refine ⟨rfl, fun s hfits => ⟨_, exec_emb_ok hfits, ?_⟩⟩
  have hlen : (serialize s.message).length = 8 * (s.milen + 1) := by simp
  refine ⟨by simp, fun j hj b hb => ?_, fun b hb => ?_, by simp,
    fun k hk => s.readPb_embedBits_storeBits _ (hlen ▸ hk), fun i hi => ?_, rfl, State.capx_setStatus_zero _,
    State.keepsRegsBut_setStatus (State.keepsRegsBut_embedBits _ (s.keepsRegsBut_storeBits _) 0) _,
    fun j => by simp, fun j => by simp, by simp, by simp⟩
  · rw [State.readBs_setStatus, State.readBs_embedBits, s.readBs_storeBits_serialize hj hb]
  · rw [State.readBs_setStatus, State.readBs_embedBits, s.readBs_storeBits_serialize_terminator hb]
  · refine State.readPb_embedBits_other _ 0 i (s.storeBits _) fun k hk => ?_
    rw [Nat.zero_add]
    exact hi k (hlen ▸ hk)

/-- Settles O20: the same test decides both outcomes, and in the fitting one step 4 leaves what the walk does. -/
theorem embRefinesEmbed : Obligations.EmbRefinesEmbed := by
  intro s t h
  rcases exec_emb_next h with ⟨hfits, rfl⟩ | ⟨hover, rfl⟩
  · refine .inr ⟨?_, State.capx_setStatus_zero _⟩
    rw [s.embed_pixels_of_fits hfits, State.pixels_setStatus, State.pixels_embedBits, State.pixels_storeBits]
  · exact .inl ⟨s.embed_pixels_of_overfull hover, State.capx_setStatus_one _, rfl⟩

end Sys2Proof.Machine

end

/-! # The extractor: the read-out is the source's walk, and what EXT leaves in each register and buffer -/

section

namespace Sys2Proof.Machine

/-! ## The usable bytes of the buffer's content -/

@[simp] theorem usableBelow_four_mul (N : Nat) : usableBelow (4 * N) = 3 * N := by
  simp [usableBelow]

theorem lsbs_length (P : List Byte) : (lsbs P).length = usableBelow P.length := by
  rw [lsbs, lsbsWalk_length, Nat.zero_add, usableBelow_zero, Nat.sub_zero]

/-- Bit `k` of the walk is that of the `k`-th usable byte. -/
theorem lsbs_getElem? {P : List Byte} {k : Nat} (h : usable k < P.length) : (lsbs P)[k]? = some (lsb P[usable k]) := by
  have hbit := lsbsWalk_getElem? P 0 (usable k) h (by rw [Nat.zero_add]; exact usable_mod_ne k)
  rwa [Nat.zero_add, usableBelow_usable, usableBelow_zero, Nat.sub_zero] at hbit

namespace State

/-- Bit by bit over the usable bytes (R153) reads what byte by byte over the whole buffer does (R150). -/
theorem readOut_eq_lsbs_pixels (s : State) : s.readOut = lsbs s.pixels := by
  refine List.ext_getElem (by simp [lsbs_length]) fun k hk hk' => ?_
  have hpix : usable k < s.pixels.length := by
    rw [s.pixels_length, usable_lt_iff]
    exact hk.trans_eq s.readOut_length
  have hbyte : s.pixels[usable k] = s.readPb (usable k) := Memory.content_getElem _ _ _ _ hpix
  rw [s.readOut_getElem hk, ← hbyte]
  exact ((List.getElem_eq_iff hk').2 (lsbs_getElem? hpix)).symm

theorem deserialize_readOut (s : State) : deserialize s.readOut = extract s.pixels := by
  rw [readOut_eq_lsbs_pixels, extract]

theorem recovered_getElem? (s : State) {j : Nat} (h : j < s.molen) : s.recovered[j]? = some (s.readMo j) := by
  have hlen : j < s.recovered.length := by rwa [s.recovered_length]
  rw [List.getElem?_eq_getElem hlen]
  exact congrArg some (Memory.content_getElem _ _ _ _ hlen)

theorem keepsRegsBut_trans {s t u : State} {A B : List Reg} (h : s.keepsRegsBut t A) (h' : t.keepsRegsBut u B) :
    s.keepsRegsBut u (A ++ B) := by
  intro r hr
  rw [List.mem_append, not_or] at hr
  obtain ⟨hA, hB⟩ := hr
  exact (h' r hB).trans (h r hA)

end State

/-! ## EXT, from the state before to the state after -/

section

variable {s s' t t' : State}

/-- What EXT writes, in terms of the read-out. -/
theorem results_of_exec_ext (h : exec .ext s = .next t) :
    t.bitSeq = s.readOut ∧ t.recovered = deserialize s.readOut ∧
    t.blen = s.readOut.length ∧ t.molen = (deserialize s.readOut).length := by
  cases h
  exact ⟨by simp, by simp, rfl, rfl⟩

/-- EXT writes none of what it reads. -/
theorem readOut_of_exec_ext (h : exec .ext s = .next t) : t.readOut = s.readOut := by
  cases h
  rfl

/-- EXT writes STATUS, BLEN, MOLEN, BS and MO, and nothing else. -/
theorem frame_of_exec_ext (h : exec .ext s = .next t) :
    s.keepsRegsBut t [.status, .blen, .molen] ∧ s.keepsPb t ∧ s.keepsMi t ∧ s.keepsHost t := by
  cases h
  have hregs := State.keepsRegsBut_trans (s.keepsRegsBut_storeBits s.readOut)
    ((s.storeBits s.readOut).keepsRegsBut_storeMessage (deserialize s.readOut))
  exact ⟨State.keepsRegsBut_setStatus hregs _, fun _ => rfl, fun _ => rfl, rfl, rfl⟩

theorem status_of_exec_ext (h : exec .ext s = .next t) : t.status = 0x00#8 ∧ t.capx = false := by
  cases h
  exact ⟨rfl, State.capx_setStatus_zero _⟩

theorem readBs_of_exec_ext (h : exec .ext s = .next t) {k : Nat} (hk : k < 3 * s.npix) :
    t.readBs k = lsb (s.readPb (usable k)) := by
  cases h
  have hout : k < s.readOut.length := by rwa [s.readOut_length]
  exact (s.readBs_storeBits _ hout).trans (s.readOut_getElem hout)

/-- EXT's results are a function of the read-out. -/
theorem results_congr_of_exec_ext (h : exec .ext s = .next t) (h' : exec .ext s' = .next t')
    (hout : s'.readOut = s.readOut) :
    t'.blen = t.blen ∧ t'.bitSeq = t.bitSeq ∧ t'.molen = t.molen ∧ t'.recovered = t.recovered := by
  obtain ⟨hbits, hrec, hblen, hmolen⟩ := results_of_exec_ext h
  obtain ⟨hbits', hrec', hblen', hmolen'⟩ := results_of_exec_ext h'
  rw [hout] at hbits' hrec' hblen' hmolen'
  exact ⟨hblen'.trans hblen.symm, hbits'.trans hbits.symm, hmolen'.trans hmolen.symm, hrec'.trans hrec.symm⟩

end

/-- Settles O24: the read-out is the walk over the buffer's content, and EXT stores it and its deserialization. -/
theorem extReadsWholeBuffer : Obligations.ExtReadsWholeBuffer := by
  refine ⟨rfl, fun s => ?_⟩
  obtain ⟨t, ht⟩ := exec_total .ext s
  obtain ⟨hbits, hrec, hblen, hmolen⟩ := results_of_exec_ext ht
  obtain ⟨hstatus, hcapx⟩ := status_of_exec_ext ht
  refine ⟨t, ht, hblen.trans s.readOut_length, fun k hk => ?_, hbits.trans s.readOut_eq_lsbs_pixels,
    hrec.trans (by rw [hbits]), hrec.trans s.deserialize_readOut, hmolen.trans (by rw [s.deserialize_readOut]),
    fun j => t.recovered_getElem?, hstatus, hcapx, frame_of_exec_ext ht⟩
  rw [readBs_of_exec_ext ht hk, lsb_eq_bitOf]
  rfl

/-- Settles O25: the results come from the read-out, which the usable LSBs and NPIX fix and EXT keeps. -/
theorem extDependsOnLsbsOnly : Obligations.ExtDependsOnLsbsOnly := by
  refine ⟨fun s s' hN hlsb => ?_, fun s => ?_⟩
  · obtain ⟨t, ht⟩ := exec_total .ext s
    obtain ⟨t', ht'⟩ := exec_total .ext s'
    exact ⟨t, t', ht, ht', results_congr_of_exec_ext ht ht' (State.readOut_congr hN hlsb)⟩
  · obtain ⟨t, ht⟩ := exec_total .ext s
    obtain ⟨u, hu⟩ := exec_total .ext t
    exact ⟨t, u, ht, hu, results_congr_of_exec_ext ht hu (readOut_of_exec_ext ht)⟩

end Sys2Proof.Machine

end

/-! # The laws of spec/44: capacity and EMB's check, what EMB leaves alone in PB, and EMB with EXT -/

section

namespace Sys2Proof.Machine

/-! ## One byte of PB under EMB -/

/-- What embedding the sequence `B` makes of byte `i` of PB with old value `v`: an alpha byte stays, a usable one takes
the bit of its rank, if there is one (R130, R132). -/
def embeddedByte (B : List Bit) (i : Nat) (v : Byte) : Byte :=
  if i % 4 = 3 then v else (B[usableBelow i]?.map (setLsb v)).getD v

section

variable {B : List Bit} {i : Nat}

theorem embeddedByte_alpha (h : i % 4 = 3) (v : Byte) : embeddedByte B i v = v := if_pos h

theorem embeddedByte_written (h : i % 4 ≠ 3) (hB : usableBelow i < B.length) (v : Byte) :
    embeddedByte B i v = setLsb v B[usableBelow i] := by
  simp [embeddedByte, h, hB]

theorem embeddedByte_beyond (h : B.length ≤ usableBelow i) (v : Byte) : embeddedByte B i v = v := by
  simp [embeddedByte, List.getElem?_eq_none h]

/-- A byte is one of the written ones, or stays. -/
theorem embeddedByte_written_or_kept (B : List Bit) (i : Nat) :
    (∃ b, ∀ v, embeddedByte B i v = setLsb v b) ∨ ∀ v, embeddedByte B i v = v := by
  by_cases halpha : i % 4 = 3
  · exact .inr (embeddedByte_alpha halpha)
  · rcases Nat.lt_or_ge (usableBelow i) B.length with hB | hB
    · exact .inl ⟨_, embeddedByte_written halpha hB⟩
    · exact .inr (embeddedByte_beyond hB)

/-- Bits 7:1 stay (R170). -/
theorem embeddedByte_cover (B : List Bit) (i : Nat) (v : Byte) : embeddedByte B i v &&& 0xFE#8 = v &&& 0xFE#8 := by
  rcases embeddedByte_written_or_kept B i with ⟨b, hb⟩ | hkept
  · rw [hb, setLsb_cover]
  · rw [hkept]

theorem embeddedByte_idem (B : List Bit) (i : Nat) (v : Byte) :
    embeddedByte B i (embeddedByte B i v) = embeddedByte B i v := by
  rcases embeddedByte_written_or_kept B i with ⟨b, hb⟩ | hkept
  · rw [hb, hb, setLsb_setLsb]
  · rw [hkept]

/-- A written byte does not depend on its old bit 0 (R180). -/
theorem embeddedByte_congr (h : i % 4 ≠ 3) (hB : usableBelow i < B.length) {v v' : Byte}
    (hcover : v' &&& 0xFE#8 = v &&& 0xFE#8) : embeddedByte B i v' = embeddedByte B i v := by
  rw [embeddedByte_written h hB, embeddedByte_written h hB, setLsb, setLsb, hcover]

end

/-- The bytes of rank below `L` are those up to the usable byte of rank `L - 1`. -/
theorem usableBelow_lt_iff {i L : Nat} (hL : 0 < L) : usableBelow i < L ↔ i ≤ usable (L - 1) := by
  unfold usableBelow usable
  omega

/-- Bits 7:1 of a byte are half its value. -/
theorem toNat_div_two (v : Byte) : v.toNat / 2 = (v &&& 0xFE#8).toNat / 2 := by
  revert v
  decide

theorem toNat_div_two_congr {v w : Byte} (h : v &&& 0xFE#8 = w &&& 0xFE#8) : v.toNat / 2 = w.toNat / 2 := by
  rw [toNat_div_two v, toNat_div_two w, h]

namespace State

variable (s : State)

/-- Step 4 of EMB, byte by byte of PB. -/
theorem readPb_embedBits_zero (B : List Bit) (i : Nat) :
    (embedBits B 0 s).readPb i = embeddedByte B i (s.readPb i) := by
  by_cases halpha : i % 4 = 3
  · rw [s.readPb_embedBits_alpha B 0 halpha, embeddedByte_alpha halpha]
  · obtain ⟨k, rfl⟩ := exists_usable halpha
    rw [readPb_embedBits_zero_usable, embeddedByte, if_neg halpha, usableBelow_usable]

theorem pixels_congr {s s' : State} (hN : s'.npix = s.npix) (h : s.keepsPb s') : s'.pixels = s.pixels := by
  rw [pixels, pixels, hN]
  exact Memory.content_congr fun i _ => h i

end State

/-! ## EMB, from the state before to the state after -/

section

variable {s t : State}

/-- A message that fits (R133). -/
theorem exec_emb_ends_ok (hfits : 8 * (s.milen + 1) ≤ 3 * s.npix) : ∃ t, exec .emb s = .next t ∧ t.capx = false :=
  ⟨_, exec_emb_ok hfits, State.capx_setStatus_zero _⟩

/-- A message that does not (R135, R191). -/
theorem exec_emb_raises (hover : 3 * s.npix < 8 * (s.milen + 1)) : ∃ t, exec .emb s = .next t ∧ t.capx = true :=
  ⟨_, exec_emb_overfull hover, State.capx_setStatus_one _⟩

theorem readPb_of_exec_emb_fits (h : exec .emb s = .next t) (hfits : 8 * (s.milen + 1) ≤ 3 * s.npix) (i : Nat) :
    t.readPb i = embeddedByte (serialize s.message) i (s.readPb i) := by
  rw [exec_emb_ok hfits] at h
  cases h
  exact State.readPb_embedBits_zero (s.storeBits _) _ i

/-- PB as it was (R135, R174). -/
theorem keepsPb_of_exec_emb_overfull (h : exec .emb s = .next t) (hover : 3 * s.npix < 8 * (s.milen + 1)) :
    s.keepsPb t := by
  rw [exec_emb_overfull hover] at h
  cases h
  exact fun _ => rfl

/-- In either outcome a byte of PB takes what embedding makes of it, or stays. -/
theorem readPb_of_exec_emb (h : exec .emb s = .next t) (i : Nat) :
    t.readPb i = embeddedByte (serialize s.message) i (s.readPb i) ∨ t.readPb i = s.readPb i := by
  rcases Nat.lt_or_ge (3 * s.npix) (8 * (s.milen + 1)) with hover | hfits
  · exact .inr (keepsPb_of_exec_emb_overfull h hover i)
  · exact .inl (readPb_of_exec_emb_fits h hfits i)

/-- In either outcome nothing but STATUS, BLEN, BS and PB is written. -/
theorem frame_of_exec_emb (h : exec .emb s = .next t) :
    s.keepsRegsBut t [.status, .blen] ∧ s.keepsMi t ∧ s.keepsMo t ∧ s.keepsHost t := by
  have hregs := s.keepsRegsBut_storeBits (serialize s.message)
  rcases exec_emb_next h with ⟨-, rfl⟩ | ⟨-, rfl⟩
  · exact ⟨State.keepsRegsBut_setStatus (State.keepsRegsBut_embedBits _ hregs 0) _, fun j => by simp,
      fun j => by simp, by simp, by simp⟩
  · exact ⟨State.keepsRegsBut_setStatus hregs _, fun _ => rfl, fun _ => rfl, rfl, rfl⟩

theorem npix_of_exec_emb (h : exec .emb s = .next t) : t.npix = s.npix :=
  (frame_of_exec_emb h).1 .npix (by decide)

theorem milen_of_exec_emb (h : exec .emb s = .next t) : t.milen = s.milen :=
  (frame_of_exec_emb h).1 .milen (by decide)

theorem message_of_exec_emb (h : exec .emb s = .next t) : t.message = s.message := by
  obtain ⟨-, hmi, -, -⟩ := frame_of_exec_emb h
  exact State.message_congr (milen_of_exec_emb h) fun j _ => hmi j

theorem cover_of_exec_emb (h : exec .emb s = .next t) (i : Nat) :
    t.readPb i &&& 0xFE#8 = s.readPb i &&& 0xFE#8 := by
  rcases readPb_of_exec_emb h i with hi | hi
  · rw [hi, embeddedByte_cover]
  · rw [hi]

/-- The bytes above that of the last bit stay (R179). -/
theorem readPb_of_exec_emb_beyond (h : exec .emb s = .next t) {i : Nat} (hi : usable (8 * (s.milen + 1) - 1) < i) :
    t.readPb i = s.readPb i := by
  rcases readPb_of_exec_emb h i with hnew | hkept
  · rw [hnew]
    refine embeddedByte_beyond ?_ _
    rw [serialize_length, State.message_length]
    exact Nat.le_of_not_lt fun hrank => absurd ((usableBelow_lt_iff (by omega)).1 hrank) (Nat.not_le_of_lt hi)
  · exact hkept

theorem pixels_of_exec_emb_fits (h : exec .emb s = .next t) (hfits : 8 * (s.milen + 1) ≤ 3 * s.npix) :
    t.pixels = embedWalk 0 (serialize s.message) s.pixels := by
  rw [exec_emb_ok hfits] at h
  cases h
  exact State.pixels_embedBits (s.storeBits _) _

end

/-- Settles O18: the check fails before step 4, so BS and BLEN are all that is written before STATUS. -/
theorem embOverfullRaisesAndKeepsPixels : Obligations.EmbOverfullRaisesAndKeepsPixels := by
  intro s hover
  refine ⟨_, exec_emb_overfull hover, rfl, State.capx_setStatus_one _, fun _ => rfl, rfl, by simp, by simp,
    fun j hj b hb => s.readBs_storeBits_serialize hj hb, fun b hb => s.readBs_storeBits_serialize_terminator hb, ?_⟩
  obtain ⟨hregs, hmi, hmo, hhost⟩ := frame_of_exec_emb (exec_emb_overfull hover)
  exact ⟨hregs, hmi, hmo, hhost, fun i => exec_total i _⟩

/-- Settles O21: a changed byte is usable, has the rank of a bit, and keeps its bits 7:1. -/
theorem embKeepsAlphaAndCover : Obligations.EmbKeepsAlphaAndCover := by
  intro s t h
  have hcover := cover_of_exec_emb h
  have hchanged (i : Nat) (hne : t.readPb i ≠ s.readPb i) := usable_of_exec_emb_changes h hne
  refine ⟨fun i halpha => ?_, hcover, fun i => ?_, fun i => readPb_of_exec_emb_beyond h, fun i hi => ?_,
    keepsPb_of_exec_emb_overfull h, npix_of_exec_emb h, ?_⟩
  · exact by_contra fun hne => (hchanged i hne).1 halpha
  · have hhalf := toNat_div_two_congr (hcover i)
    exact ⟨hhalf, by omega, by omega⟩
  · exact by_contra fun hne => absurd (hchanged i hne).2 (Nat.not_lt_of_le hi)
  · rw [t.pixels_length, s.pixels_length, npix_of_exec_emb h]

/-- Settles O22: the second EMB gives each byte the bit that the first gave it. -/
theorem embIsIdempotent : Obligations.EmbIsIdempotent := by
  intro s hfits
  obtain ⟨t, ht, hok⟩ := exec_emb_ends_ok hfits
  have hfits' : 8 * (t.milen + 1) ≤ 3 * t.npix := by rwa [milen_of_exec_emb ht, npix_of_exec_emb ht]
  obtain ⟨u, hu, hok'⟩ := exec_emb_ends_ok hfits'
  have hpb : t.keepsPb u := fun i => by
    rw [readPb_of_exec_emb_fits hu hfits', message_of_exec_emb ht, readPb_of_exec_emb_fits ht hfits,
      embeddedByte_idem]
  exact ⟨t, u, ht, hok, hu, hok', hpb, State.pixels_congr (npix_of_exec_emb hu) hpb⟩

/-- Settles O23: a byte either takes its bit, which leaves nothing of the old bit 0, or is the same in both states. -/
theorem embIgnoresOldLsbs : Obligations.EmbIgnoresOldLsbs := by
  intro s s' hN hlen hmi hfits husable halpha hbeyond
  obtain ⟨t, ht⟩ := exec_total .emb s
  obtain ⟨t', ht'⟩ := exec_total .emb s'
  have hM : s'.message = s.message := State.message_congr hlen hmi
  have hpb : t.keepsPb t' := fun i => by
    rw [readPb_of_exec_emb_fits ht' (by rwa [hN, hlen]), hM, readPb_of_exec_emb_fits ht hfits]
    rcases Nat.lt_or_ge i (usable (8 * (s.milen + 1) - 1) + 1) with hi | hi
    · by_cases ha : i % 4 = 3
      · rw [halpha i hi ha]
      · have hrank := (usableBelow_lt_iff (by omega)).2 (Nat.le_of_lt_succ hi)
        exact embeddedByte_congr ha (by simpa using hrank) (husable i hi ha)
    · rw [hbeyond i hi]
  exact ⟨t, t', ht, ht', hpb,
    State.pixels_congr (by rw [npix_of_exec_emb ht', npix_of_exec_emb ht, hN]) hpb⟩

/-! ## The advisory capacity and EMB's check -/

/-- From 3 pixels on, the capacity is the longest message that fits (R171). -/
theorem le_capacity_iff {w h n : Nat} (hpix : 3 ≤ w * h) : n ≤ capacity w h ↔ 8 * (n + 1) ≤ 3 * (w * h) := by
  rw [capacity_eq]
  omega

/-- More characters than the capacity fit no buffer (R171, R172). -/
theorem overfull_of_capacity_lt {w h n : Nat} (hlt : capacity w h < n) : 3 * (w * h) < 8 * (n + 1) := by
  rw [capacity_eq] at hlt
  omega

/-- Settles O8: both tests compare the same product, and only the clamp at 0 tells them apart. -/
theorem capacityAndEmbCheckAgree : Obligations.CapacityAndEmbCheckAgree := by
  refine ⟨fun s w h hwh hpix => ?_, fun s w h hwh hlen => ?_, fun s w h hwh hpix => ?_⟩
  · have hagree : s.milen ≤ capacity w h ↔ 8 * (s.milen + 1) ≤ 3 * s.npix := hwh ▸ le_capacity_iff (hwh ▸ hpix)
    exact ⟨hagree, fun hlen => exec_emb_ends_ok (hagree.1 hlen.le)⟩
  · exact exec_emb_raises (hwh ▸ overfull_of_capacity_lt (hlen ▸ Nat.lt_succ_self _))
  · have hover : 3 * s.npix < 8 * (s.milen + 1) := by omega
    exact ⟨capacity_eq_zero (by omega), Nat.not_le_of_lt hover, exec_emb_raises hover⟩

/-! ## Recovered characters -/

/-- No cell of a recovered message is 0 (R25, R177). -/
theorem State.readMo_ne_zero_of_recovered {t : State} {B : List Bit} (h : t.recovered = deserialize B) {j : Nat}
    (hj : j < t.molen) : t.readMo j ≠ 0x00#8 := by
  have hmem : t.readMo j ∈ t.recovered := List.mem_of_getElem? (t.recovered_getElem? hj)
  exact ne_zero_of_mem_deserialize (h ▸ hmem)

theorem toNat_range_of_mem_deserialize {B : List Bit} {c : Byte} (h : c ∈ deserialize B) :
    1 ≤ c.toNat ∧ c.toNat ≤ 255 := by
  have hne : c.toNat ≠ 0 := fun h0 => ne_zero_of_mem_deserialize h (BitVec.eq_of_toNat_eq h0)
  exact ⟨Nat.one_le_iff_ne_zero.2 hne, Nat.le_of_lt_succ c.isLt⟩

/-- Settles O16: every recovered message is a result of `deserialize`, which gives no character 0. -/
theorem recoveredCharactersAreNonzero : Obligations.RecoveredCharactersAreNonzero := by
  refine ⟨fun P c => toNat_range_of_mem_deserialize, fun B c => toNat_range_of_mem_deserialize, fun s t h j hj => ?_⟩
  have hrec : ∃ B, t.recovered = deserialize B := by
    rcases h with hdes | hext
    · cases hdes
      exact ⟨s.bitSeq, by simp⟩
    · obtain ⟨-, hrec, -, -⟩ := results_of_exec_ext hext
      exact ⟨s.readOut, hrec⟩
  obtain ⟨B, hB⟩ := hrec
  exact State.readMo_ne_zero_of_recovered hB hj

/-! ## The read-out after the walk -/

/-- From any index, the read-out of the walk gives the embedded bits and then the buffer's own. -/
theorem lsbsWalk_embedWalk (i : Nat) (B : List Bit) (P : List Byte) (h : B.length ≤ (lsbsWalk i P).length) :
    lsbsWalk i (embedWalk i B P) = B ++ (lsbsWalk i P).drop B.length := by
  induction i, B, P using embedWalk.induct with
  | case1 i P => simp [embedWalk]
  | case2 i b B => simp [lsbsWalk] at h
  | case3 i b B v P halpha ih =>
    simp only [lsbsWalk, embedWalk, halpha, if_true] at h ⊢
    exact ih h
  | case4 i b B v P husable ih =>
    simp only [lsbsWalk, embedWalk, if_neg husable, List.length_cons] at h ⊢
    simp [ih (Nat.le_of_succ_le_succ h)]

/-- A message that fits has no more bits than the buffer has usable bytes. -/
theorem serialize_length_le_lsbs {P M : List Byte} (h : 8 * (M.length + 1) ≤ 3 * (P.length / 4)) :
    (serialize M).length ≤ (lsbs P).length := by
  rw [serialize_length, lsbs_length, usableBelow]
  omega

/-- Whatever the buffer held (R166). -/
theorem lsbs_embedWalk {P M : List Byte} (h : 8 * (M.length + 1) ≤ 3 * (P.length / 4)) :
    lsbs (embedWalk 0 (serialize M) P) = serialize M ++ (lsbs P).drop (8 * (M.length + 1)) := by
  rw [lsbs, lsbsWalk_embedWalk 0 _ P (serialize_length_le_lsbs h), serialize_length, lsbs]

/-- The message comes back up to its first character 0, whatever the buffer held (R165, R167). -/
theorem extract_embedWalk {P M : List Byte} (h : 8 * (M.length + 1) ≤ 3 * (P.length / 4)) :
    extract (embedWalk 0 (serialize M) P) = M.takeWhile fun c => c ≠ 0x00#8 := by
  rw [extract, lsbs_embedWalk h, deserialize_serialize_append]

theorem embed_of_fits {P M : List Byte} (h : 8 * (M.length + 1) ≤ 3 * (P.length / 4)) :
    embed P M = some (embedWalk 0 (serialize M) P) := by
  refine if_neg ?_
  rw [serialize_length]
  omega

/-- Settles O28: the second message comes back whatever buffer the first one left. -/
theorem lastEmbeddedMessageWins : Obligations.LastEmbeddedMessageWins := by
  intro P M₁ M₂ _ hfits₁ hfits₂
  have hfits₂' : 8 * (M₂.length + 1) ≤ 3 * ((embedWalk 0 (serialize M₁) P).length / 4) := by
    rwa [embedWalk_length]
  exact ⟨_, _, embed_of_fits hfits₁, embed_of_fits hfits₂', by simp, by simp, extract_embedWalk hfits₂'⟩

/-! ## EMB, then EXT -/

/-- What EXT gives after an EMB that fits (R165, R166, R167). -/
theorem results_of_exec_emb_ext {s t u : State} (hfits : 8 * (s.milen + 1) ≤ 3 * s.npix)
    (ht : exec .emb s = .next t) (hu : exec .ext t = .next u) :
    u.bitSeq = serialize s.message ++ (lsbs s.pixels).drop (8 * (s.milen + 1)) ∧
    u.recovered = s.message.takeWhile fun c => c ≠ 0x00#8 := by
  have hseq : 8 * (s.message.length + 1) ≤ 3 * (s.pixels.length / 4) := by
    rw [s.message_length, s.pixels_length]
    omega
  obtain ⟨hbits, hrec, -, -⟩ := results_of_exec_ext hu
  rw [t.readOut_eq_lsbs_pixels, pixels_of_exec_emb_fits ht hfits, lsbs_embedWalk hseq, s.message_length] at hbits
  rw [t.deserialize_readOut, pixels_of_exec_emb_fits ht hfits, extract_embedWalk hseq] at hrec
  exact ⟨hbits, hrec⟩

/-- Settles O27: the read-out starts with the serialized message, and `deserialize` stops at its terminator. -/
theorem embThenExtRoundTrip : Obligations.EmbThenExtRoundTrip := by
  intro s hfits
  obtain ⟨t, ht, hok⟩ := exec_emb_ends_ok hfits
  obtain ⟨u, hu⟩ := exec_total .ext t
  obtain ⟨hbits, hrec⟩ := results_of_exec_emb_ext hfits ht hu
  refine ⟨t, u, ht, hok, hu, hbits, hrec, fun hne => ?_⟩
  have hwhole : u.recovered = s.message := hrec.trans (List.takeWhile_eq_self_iff.2 (by simpa using hne))
  exact ⟨hwhole, by rw [← u.recovered_length, hwhole, s.message_length]⟩

/-- Settles O26: the length is the read-out's terminator index, and after an EMB that fits it comes from the round
trip. -/
theorem recoveredMessageLength : Obligations.RecoveredMessageLength := by
  refine ⟨fun s => ?_, fun s t u hfits ht hu => ?_⟩
  · obtain ⟨t, ht⟩ := exec_total .ext s
    obtain ⟨hbits, -, -, hmolen⟩ := results_of_exec_ext ht
    have hindex := isTerminatorIndex_deserialize s.readOut
    refine ⟨t, ht, ?_, ?_, fun w h hwh hpix => ?_⟩
    · rw [hmolen, ← s.readOut_length]
      exact hindex.le
    · rw [hmolen, hbits, ← s.readOut_length]
      exact hindex.eq_div_iff
    · rw [capacity_eq, hwh]
      omega
  · obtain ⟨-, hrec⟩ := results_of_exec_emb_ext hfits ht hu
    have hlen : u.molen = (s.message.takeWhile fun c => c ≠ 0x00#8).length := by rw [← u.recovered_length, hrec]
    have hle : u.molen ≤ s.milen := by
      rw [hlen, ← s.message_length]
      exact (List.takeWhile_sublist _).length_le
    refine ⟨hlen, hle, fun w h hwh => hle.trans ((le_capacity_iff ?_).2 ?_)⟩
    · omega
    · rwa [hwh]

theorem State.molen_eq_zero_of_recovered (s : State) (h : s.recovered = []) : s.molen = 0 := by
  rw [← s.recovered_length, h, List.length_nil]

/-- Settles O29: the empty message fits from 3 pixels on, and fewer pixels hold no complete group to read. -/
theorem emptyMessageRoundTrip : Obligations.EmptyMessageRoundTrip := by
  refine ⟨fun s hempty hpix => ?_, fun s hempty hpix => ?_⟩
  · have hfits : 8 * (s.milen + 1) ≤ 3 * s.npix := by omega
    obtain ⟨t, ht, hok⟩ := exec_emb_ends_ok hfits
    obtain ⟨u, hu⟩ := exec_total .ext t
    obtain ⟨-, hrec⟩ := results_of_exec_emb_ext hfits ht hu
    rw [List.eq_nil_of_length_eq_zero (s.message_length.trans hempty)] at hrec
    exact ⟨t, u, ht, hok, hu, u.molen_eq_zero_of_recovered hrec, hrec⟩
  · obtain ⟨t, ht, hraised⟩ := exec_emb_raises (s := s) (by omega)
    obtain ⟨u, hu⟩ := exec_total .ext t
    obtain ⟨-, hrec, -, -⟩ := results_of_exec_ext hu
    rw [deserialize_short (by rw [t.readOut_length, npix_of_exec_emb ht]; omega)] at hrec
    exact ⟨t, u, ht, hraised, hu, u.molen_eq_zero_of_recovered hrec, hrec⟩

end Sys2Proof.Machine

end

/-! # CapacityExceeded: which command raises it, what STATUS keeps of it, and the record that nothing clears -/

section

namespace Sys2Proof.Machine

/-! ## How a command ends, and what STATUS reports -/

/-- A command ends with STATUS = 1 when it is EMB and the message does not fit, and with STATUS = 0 otherwise
(R190, R191). -/
theorem status_of_exec {i : Instr} {s t : State} (h : exec i s = .next t) :
    ((i = .emb ∧ 8 * (s.milen + 1) > 3 * s.npix) ∧ t.status = 0x01#8) ∨
    (¬ (i = .emb ∧ 8 * (s.milen + 1) > 3 * s.npix) ∧ t.status = 0x00#8) := by
  cases i with
  | emb =>
    rcases exec_emb_next h with ⟨hfits, rfl⟩ | ⟨hover, rfl⟩
    · exact .inr ⟨fun hraise => Nat.not_lt_of_le hfits hraise.2, rfl⟩
    · exact .inl ⟨⟨rfl, hover⟩, rfl⟩
  | cap | ser | des | ext => cases h; exact .inr ⟨by simp, rfl⟩

theorem State.capx_of_status_zero {s : State} (h : s.status = 0x00#8) : s.capx = false := by
  simp [State.capx, h]

theorem State.capx_of_status_one {s : State} (h : s.status = 0x01#8) : s.capx = true := by
  simp [State.capx, h]

theorem capx_of_exec {i : Instr} {s t : State} (h : exec i s = .next t) :
    t.capx = true ↔ i = .emb ∧ 8 * (s.milen + 1) > 3 * s.npix := by
  rcases status_of_exec h with ⟨hraise, hstatus⟩ | ⟨hraise, hstatus⟩
  · simp only [State.capx_of_status_one hstatus, hraise, and_self]
  · simp only [State.capx_of_status_zero hstatus, Bool.false_eq_true, hraise]

theorem State.lastOutcome_eq_capacityExceeded_iff (s : State) : s.lastOutcome = .capacityExceeded ↔ s.capx = true := by
  cases h : s.capx <;> simp [State.lastOutcome, h]

/-! ## The old STATUS does not matter -/

@[simp] theorem State.setStatus_setStatus (s : State) (v w : Byte) : (s.setStatus v).setStatus w = s.setStatus w := rfl

@[simp] theorem State.message_setStatus (s : State) (w : Byte) : (s.setStatus w).message = s.message := rfl

theorem State.storeBits_setStatus (s : State) (B : List Bit) (w : Byte) :
    (s.setStatus w).storeBits B = (s.storeBits B).setStatus w := rfl

theorem State.embedBits_setStatus (B : List Bit) (k : Nat) (s : State) (w : Byte) :
    State.embedBits B k (s.setStatus w) = (State.embedBits B k s).setStatus w := by
  induction B generalizing k s with
  | nil => rfl
  | cons b B ih => exact ih (k + 1) (s.storePixel (usable k) (setLsb (s.readPb (usable k)) b))

/-- Every command overwrites STATUS and reads none of it (R14). -/
theorem exec_setStatus (i : Instr) (s : State) (w : Byte) : exec i (s.setStatus w) = exec i s := by
  cases i with
  | cap | ser | des | ext => rfl
  | emb =>
    rcases Nat.lt_or_ge (3 * s.npix) (8 * (s.milen + 1)) with hover | hfits
    · rw [exec_emb_overfull hover]
      exact exec_emb_overfull (s := s.setStatus w) hover
    · rw [exec_emb_ok hfits, exec_emb_ok (s := s.setStatus w) hfits, State.message_setStatus, State.storeBits_setStatus,
        State.embedBits_setStatus, State.setStatus_setStatus]

/-- Settles O19: CAPX is what `status_of_exec` says, and a command overwrites the STATUS it finds. -/
theorem capacityExceededOnlyFromEmb : Obligations.CapacityExceededOnlyFromEmb := by
  intro i s t h
  have hcapx := capx_of_exec h
  refine ⟨hcapx, ?_, t.lastOutcome_eq_capacityExceeded_iff.trans hcapx, fun w => ⟨t, ?_, rfl⟩⟩
  · rcases status_of_exec h with ⟨-, hstatus⟩ | ⟨-, hstatus⟩
    · exact .inr hstatus
    · exact .inl hstatus
  · rw [exec_setStatus, h]

/-! ## The command that the next step performs -/

theorem exists_word_of_nextCommand {s : State} {i : Instr} (h : s.nextCommand = some i) :
    ∃ w rest, s.inbox = .writeReg .cmd w.toNat :: rest ∧ decode w = .ok i := by
  unfold State.nextCommand at h
  split at h
  next v rest hinbox =>
    split at h
    next hv =>
      split at h
      next hdecode =>
        cases h
        refine ⟨BitVec.ofNat 8 v, rest, ?_, hdecode⟩
        rw [hinbox, BitVec.toNat_ofNat, Nat.mod_eq_of_lt hv]
      next => cases h
    next => cases h
  next => cases h

theorem stepFor_of_nextCommand {s : State} {i : Instr} (h : s.nextCommand = some i) (p : Params) :
    ∃ rest, stepFor p s = exec i (s.setInbox rest) := by
  obtain ⟨w, rest, hinbox, hdecode⟩ := exists_word_of_nextCommand h
  exact ⟨rest, stepFor_of_decode hinbox hdecode⟩

theorem State.raisesNext_iff (s : State) :
    s.raisesNext = true ↔ s.nextCommand = some .emb ∧ 8 * (s.milen + 1) > 3 * s.npix := by
  simp [State.raisesNext, State.overfull]

/-- A step that performs a command leaves CAPX = 1 exactly when it raises. -/
theorem capx_of_step_command {p : Params} {s t : State} {i : Instr} (hi : s.nextCommand = some i)
    (h : stepFor p s = .next t) : t.capx = true ↔ s.raisesNext = true := by
  obtain ⟨rest, hstep⟩ := stepFor_of_nextCommand hi p
  rw [s.raisesNext_iff, hi, Option.some.injEq]
  exact capx_of_exec (s := s.setInbox rest) (hstep.symm.trans h)

/-- A step raises exactly when it performs a command and leaves CAPX = 1. -/
theorem raisesNext_iff_step (p : Params) (s : State) :
    s.raisesNext = true ↔ ∃ u, stepFor p s = .next u ∧ s.nextCommand.isSome = true ∧ u.capx = true := by
  constructor
  · intro hraise
    obtain ⟨hi, -⟩ := s.raisesNext_iff.1 hraise
    obtain ⟨rest, hstep⟩ := stepFor_of_nextCommand hi p
    obtain ⟨u, hu⟩ := exec_total .emb (s.setInbox rest)
    have hnext : stepFor p s = .next u := hstep.trans hu
    exact ⟨u, hnext, by rw [hi, Option.isSome_some], (capx_of_step_command hi hnext).2 hraise⟩
  · rintro ⟨u, hnext, hsome, hcapx⟩
    obtain ⟨i, hi⟩ := Option.isSome_iff_exists.1 hsome
    exact (capx_of_step_command hi hnext).1 hcapx

/-! ## The record along a run -/

/-- A run of one step more takes the first step and goes on from there. -/
theorem runFor_succ_next_iff {p : Params} {n : Nat} {s t : State} :
    runFor p (n + 1) s = .next t ↔ ∃ u, stepFor p s = .next u ∧ runFor p n u = .next t := by
  cases h : stepFor p s <;> simp [runFor, h]

theorem raisedWithin_succ_iff {p : Params} {n : Nat} {s : State} :
    raisedWithin p (n + 1) s = true ↔
      s.raisesNext = true ∨ ∃ u, stepFor p s = .next u ∧ raisedWithin p n u = true := by
  cases h : stepFor p s <;> simp [raisedWithin, h]

/-- The record is set exactly when one of the states that the run steps from raises. -/
theorem raisedWithin_iff {p : Params} {n : Nat} {s : State} :
    raisedWithin p n s = true ↔ ∃ m < n, ∃ t, runFor p m s = .next t ∧ t.raisesNext = true := by
  induction n generalizing s with
  | zero => simp [raisedWithin]
  | succ n ih =>
    rw [raisedWithin_succ_iff]
    constructor
    · rintro (hraise | ⟨u, hstep, hrec⟩)
      · exact ⟨0, n.succ_pos, s, rfl, hraise⟩
      · obtain ⟨m, hm, t, hrun, hraise⟩ := ih.1 hrec
        exact ⟨m + 1, Nat.succ_lt_succ hm, t, runFor_succ_next_iff.2 ⟨u, hstep, hrun⟩, hraise⟩
    · rintro ⟨m, hm, t, hrun, hraise⟩
      cases m with
      | zero => cases hrun; exact .inl hraise
      | succ m =>
        obtain ⟨u, hstep, hrest⟩ := runFor_succ_next_iff.1 hrun
        exact .inr ⟨u, hstep, ih.2 ⟨m, Nat.lt_of_succ_lt_succ hm, t, hrest, hraise⟩⟩

/-- Settles O43: a step raises exactly when the command it performs leaves CAPX = 1, and the record says so of a run. -/
theorem raisedRecordMatchesStatus : Obligations.RaisedRecordMatchesStatus := by
  refine ⟨fun p s t i hi h => capx_of_step_command hi h, fun p n s => ?_⟩
  simp only [raisedWithin_iff, raisesNext_iff_step p, exists_and_left]

/-! ## A step and the host's list -/

theorem stepFor_of_inbox_nil {s : State} (h : s.inbox = []) (p : Params) : stepFor p s = .next s := by
  simp only [stepFor, advance, h]

theorem decode_of_decodeTableWord {w : Nat} {i : Instr} (h : decodeTableWord 8 w = some i) :
    decode (tableWordByte 8 w) = .ok i := by
  cases hd : decode (tableWordByte 8 w) with
  | ok j => simpa [decodeTableWord, decodeBytes, Except.map, hd] using h
  | error r => simp [decodeTableWord, decodeBytes, Except.map, hd] at h

/-- Settles O5: `advance` serves the first event of the list, and the placed word is that event. -/
theorem placedWordRunsNext : Obligations.PlacedWordRunsNext :=
  ⟨fun _ _ _ _ h => stepFor_of_inbox h, fun _ _ _ h => stepFor_of_inbox h,
    fun p _ h => stepFor_of_inbox_nil h p, fun _ h => stepFor_of_inbox_nil h _,
    fun s w _ hw =>
      stepFor_of_decode (s := s.withFetchWord 8 w) (rest := s.inbox) rfl (decode_of_decodeTableWord hw)⟩

end Sys2Proof.Machine

end
